-- ==== Sys2Proof/Word.lean ====
section
/-! DEFINITION. The value types of the machine (`00_scope.md` R7, R8): every value is an unsigned bit pattern, bit 0 the
least significant. -/

namespace Sys2Proof

/-- A data register, a memory byte, a timer, the immediate `NN`. -/
abbrev Byte := BitVec 8

/-- An instruction word, `PC`, `I`, a call-stack entry. -/
abbrev Word := BitVec 16

/-- A 4-bit field: a register index `X` or `Y`, a row count `N`, the class, a key number (R92). -/
abbrev Nibble := BitVec 4

/-- The 12-bit field `NNN` (R92). -/
abbrev Addr12 := BitVec 12

end Sys2Proof
end

