-- ==== Sys2Proof/Config.lean ====
section
/-! DEFINITION. What is fixed when the machine is built (`00_scope.md` R6): the sizes the source states, the parameters a
machine is built with, and the one free value, the random byte. The values a machine is built with stand in
`Machine/Built.lean`. -/

namespace Sys2Proof

/-- `MEM_SIZE` (R6). -/
def memSize : Nat := 4096

/-- `PROG_ORIGIN`: the load address and the reset value of `PC` (R6, `10_state.md` R24). -/
def progOrigin : Nat := 0x200

/-- `MAX_PROGRAM` = 4096 - 0x200 = 3584 bytes (R6, `70_reset_and_hazards.md` R317). -/
def maxProgram : Nat := 3584

/-- `GLYPH_BASE` (R6). -/
def glyphBase : Nat := 0x50

/-- The three named values of the `SHL_FLAG` strap (`43_alu.md` R197). -/
inductive ShlFlag where
  /-- 8 when bit 7 of the shifted value is 1, else 0: the spec's default. -/
  | high8
  /-- Bit 3 of the shifted value, in place: 0 or 8. -/
  | bit3
  /-- Bit 7 of the shifted value as 0 or 1: the conventional flag. -/
  | conv
  deriving DecidableEq, Repr

/-- The 80 bytes of a `GLYPH_TABLE`: `GLYPH_COUNT` = 16 glyphs of `GLYPH_BYTES` = 5 bytes (R6, `10_state.md` R45). -/
abbrev GlyphTable := Vector Byte 80

/-- The parameters that steps depend on and no step changes: the configuration of `10_state.md` R20 (R33; `00_scope.md` R6). -/
structure Config where
  /-- `LEGACY_SHIFT_SOURCE`: true is legacy mode, false modern mode (R33). -/
  legacyShiftSource : Bool
  /-- `SHL_FLAG` (R33). -/
  shlFlag : ShlFlag
  /-- `STACK_DEPTH` (R6, `10_state.md` R36). -/
  stackDepth : Nat
  /-- `GLYPH_TABLE`, which reset puts into memory at `GLYPH_BASE` (R6, `10_state.md` R45, D11). -/
  glyphTable : GlyphTable
  deriving DecidableEq, Repr

/-- FREE VALUE (DESIGN CHOICE, log 6, safe): the byte that draw number `k` of the random source gives. `43_alu.md` R201
fixes nothing of it, so it has no body: nothing can be proved of it, and a claim holds for every source. -/
opaque Config.rand8 : Nat → Byte

end Sys2Proof
end

