-- ==== Sys2Proof/Machine/Built.lean ====
section
/-! DEFINITION. The values `State.reset` is built with: the parameters of `00_scope.md` R6, the default glyph table of
`10_state.md` R45 among them. No step reads them: steps read `State.cfg` and memory. -/

namespace Sys2Proof.Machine

/-- The bytes of the spec's default `GLYPH_TABLE`, glyph by glyph (R45, general knowledge GK1, UNVERIFIED, log 4). -/
def defaultGlyphBytes : List Byte :=
  [0xF0, 0x90, 0x90, 0x90, 0xF0, 0x20, 0x60, 0x20, 0x20, 0x70] ++
  [0xF0, 0x10, 0xF0, 0x80, 0xF0, 0xF0, 0x10, 0xF0, 0x10, 0xF0] ++
  [0x90, 0x90, 0xF0, 0x10, 0x10, 0xF0, 0x80, 0xF0, 0x10, 0xF0] ++
  [0xF0, 0x80, 0xF0, 0x90, 0xF0, 0xF0, 0x10, 0x20, 0x40, 0x40] ++
  [0xF0, 0x90, 0xF0, 0x90, 0xF0, 0xF0, 0x90, 0xF0, 0x10, 0xF0] ++
  [0xF0, 0x90, 0xF0, 0x90, 0x90, 0xE0, 0x90, 0xE0, 0x90, 0xE0] ++
  [0xF0, 0x80, 0x80, 0x80, 0xF0, 0xE0, 0x90, 0x90, 0x90, 0xE0] ++
  [0xF0, 0x80, 0xF0, 0x80, 0xF0, 0xF0, 0x80, 0xF0, 0x80, 0x80]

/-- The spec's default `GLYPH_TABLE` (R45). -/
def defaultGlyphTable : GlyphTable := ⟨defaultGlyphBytes.toArray, rfl⟩

/-- The parameters of `State.reset`. `SHL_FLAG`, `STACK_DEPTH` and `GLYPH_TABLE` are the spec's defaults (R6,
UNVERIFIED, log 3, log 4). The spec gives `LEGACY_SHIFT_SOURCE` no value: DESIGN CHOICE modern, the start state of
`95_test_vectors.md` (log 2, unsafe only for a claim about a run from reset that shifts with X not Y). -/
def builtConfig : Config :=
  { legacyShiftSource := false, shlFlag := .high8, stackDepth := 16, glyphTable := defaultGlyphTable }

end Sys2Proof.Machine
end

