-- ==== Sys2Proof/Machine/State.lean ====
section
/-! DEFINITION. The state of the machine (`10_state.md` R20), the reasons a step can stop, and the state after reset (R46). -/

namespace Sys2Proof.Machine

/-- The causes the `FAULT` latch can hold (`60_exceptions.md` R271, R272). -/
inductive Cause where
  /-- `FAULT = 0`: no fault. -/
  | none
  /-- A fetch with `PC + 1 > 4095` (R276). -/
  | fetchOutOfBounds
  /-- DXYN, FX33, FX55 or FX65 reaching above 4095 (R277). -/
  | memOutOfBounds
  /-- 00EE with an empty stack (R278). -/
  | stackUnderflow
  /-- 2NNN with a full stack (R279). -/
  | stackOverflow
  /-- EX9E or EXA1 with a register above 15 (R280). -/
  | keyIndexOutOfRange
  deriving DecidableEq, Repr

/-- Memory as the bytes that differ from the reset contents `resetByte`, in one canonical form (`Memory.wf`): addresses
strictly rising, all below 4096, none listed with its reset byte. The reset contents hold the `GLYPH_TABLE` of `State.cfg`,
which no step changes (DESIGN CHOICE, log 4, safe). -/
structure Memory where
  cells : List Host.Cell
  deriving DecidableEq, Repr

/-- The frame buffer `FB` (`10_state.md` R40): entry `y` is row `y`, and bit `x` of it is the pixel `FB[x][y]`. The packing is
the model's (DESIGN CHOICE, log 13, safe): the spec fixes none (D23). -/
abbrev FrameBuffer := Vector (BitVec 64) 32

/-- The architectural state (R20), the parameters the steps depend on (R33), and one field of the model's own. -/
structure State where
  /-- `V[0..15]` (R21); `V[0xF]` is `VF` (R22). -/
  v : Vector Byte 16
  /-- `I` (R34). -/
  i : Word
  /-- `PC` (R24). -/
  pc : Word
  /-- `DT` (R29). -/
  dt : Byte
  /-- `ST` (R31). -/
  st : Byte
  /-- `PAUSED` (R32). -/
  paused : Bool
  /-- `MEM` (R38). -/
  mem : Memory
  /-- `STACK[0..SP-1]`, oldest first; its length is `SP` (R35, D5, DESIGN CHOICE, log 12, safe). -/
  stack : List Word
  /-- `FB` (R40). -/
  fb : FrameBuffer
  /-- `KEYS`: entry `k` is true when key `k` is down (R42). -/
  keys : Vector Bool 16
  /-- `FAULT` (`60_exceptions.md` R272). -/
  fault : Cause
  /-- The configuration: the straps, the stack depth and the glyph table, which no step changes (R20, R33, DESIGN CHOICE, log 2,
  log 3 and log 4, safe). -/
  cfg : Config
  /-- The MODEL'S own field (log 6): how many random bytes have been drawn, so that each draw is a fresh free value. -/
  draws : Nat
  deriving DecidableEq, Repr

/-- The state reset leaves in a machine built with the parameters `c` (R46, `70_reset_and_hazards.md` R310). -/
def State.resetWith (c : Config) : State :=
  { v := Vector.replicate 16 0
    i := 0
    pc := BitVec.ofNat 16 progOrigin
    dt := 0
    st := 0
    paused := false
    mem := { cells := [] }
    stack := []
    fb := Vector.replicate 32 0
    keys := Vector.replicate 16 false
    fault := .none
    cfg := c
    draws := 0 }

/-- The state right after reset of the machine as built, before a program is loaded (R46). -/
def State.reset : State := State.resetWith builtConfig

/-- Why the host's `fault` outcome could be given: never. It has no constructor, because this spec's fatal conditions are a
state of the machine (`60_exceptions.md` R272 to R274, `40_step_cycle.md` R129): the `FAULT` latch is set in a NEXT state, and
every later step leaves that state as it is (log 1, safe). -/
inductive Fault where
  deriving DecidableEq, Repr

/-- Why a step could be refused. -/
inductive Refusal where
  /-- An instruction without a meaning: raised by no arm of `exec`, since every instruction has its meaning. It would be safe. -/
  | notModelled (mnemonic : String)
  deriving DecidableEq, Repr

end Sys2Proof.Machine
end

