-- ==== Sys2Proof/Machine/Flags.lean ====
section
/-! DEFINITION. Every flag computation of the machine: what an instruction writes to `VF` (`10_state.md` R27). -/

namespace Sys2Proof.Machine

/-- A flag as a byte, 0 or 1 (`10_state.md` R22). -/
def flagByte (b : Bool) : Byte := if b then 1 else 0

/-- Carry of 8XY4: the unwrapped sum exceeds 255 (`43_alu.md` R187). -/
def carryFlag (x y : Byte) : Byte := flagByte (255 < x.toNat + y.toNat)

/-- Not-borrow of 8XY5 and 8XY7: the minuend is STRICTLY greater than the subtrahend (R188, R190). -/
def notBorrowFlag (minuend subtrahend : Byte) : Byte := flagByte (subtrahend.toNat < minuend.toNat)

/-- Flag of 8XY6: the bit shifted out (R189). -/
def shrFlag (s : Byte) : Byte := flagByte (s.getLsbD 0)

/-- Flag of 8XYE: the function the `SHL_FLAG` strap selects (R197). -/
def shlFlagOf : ShlFlag → Byte → Byte
  | .high8, s => if s.getLsbD 7 then 0x08 else 0x00
  | .bit3, s => s &&& 0x08
  | .conv, s => flagByte (s.getLsbD 7)

end Sys2Proof.Machine
end

