-- ==== Sys2Proof/Syntax.lean ====
section
/-! DEFINITION. The instructions: one constructor for each row of spec/opcode_table.json (`30_encoding.md` R96, R98), with
every operand field of the word, the fields an instruction does not examine included, so that decoding drops no bit. -/

namespace Sys2Proof

/-- The 35 opcodes of `30_encoding.md` R96 and the three fallback rows of R98. `x` and `y` are register indices, `nn` the
immediate byte, `nnn` the 12-bit immediate, `n` the low nibble (R92). -/
inductive Instr where
  /-- 00E0 -/
  | cls
  /-- 00EE -/
  | ret
  /-- 0NNN, any class-0 word but the two above -/
  | sys (nnn : Addr12)
  /-- 1NNN -/
  | jp (nnn : Addr12)
  /-- 2NNN -/
  | call (nnn : Addr12)
  /-- 3XNN -/
  | seImm (x : Nibble) (nn : Byte)
  /-- 4XNN -/
  | sneImm (x : Nibble) (nn : Byte)
  /-- 5XYN; `n` is not examined (R100) -/
  | seReg (x y n : Nibble)
  /-- 6XNN -/
  | ldImm (x : Nibble) (nn : Byte)
  /-- 7XNN -/
  | addImm (x : Nibble) (nn : Byte)
  /-- 8XY0 -/
  | ldReg (x y : Nibble)
  /-- 8XY1 -/
  | or (x y : Nibble)
  /-- 8XY2 -/
  | and (x y : Nibble)
  /-- 8XY3 -/
  | xor (x y : Nibble)
  /-- 8XY4 -/
  | addReg (x y : Nibble)
  /-- 8XY5 -/
  | sub (x y : Nibble)
  /-- 8XY6 -/
  | shr (x y : Nibble)
  /-- 8XY7 -/
  | subn (x y : Nibble)
  /-- 8XYE -/
  | shl (x y : Nibble)
  /-- 9XYN; `n` is not examined (R100) -/
  | sneReg (x y n : Nibble)
  /-- ANNN -/
  | ldI (nnn : Addr12)
  /-- BNNN -/
  | jpV0 (nnn : Addr12)
  /-- CXNN -/
  | rnd (x : Nibble) (nn : Byte)
  /-- DXYN -/
  | drw (x y n : Nibble)
  /-- EX9E -/
  | skp (x : Nibble)
  /-- EXA1 -/
  | sknp (x : Nibble)
  /-- FX07 -/
  | ldVxDt (x : Nibble)
  /-- FX0A -/
  | ldVxK (x : Nibble)
  /-- FX15 -/
  | ldDtVx (x : Nibble)
  /-- FX18 -/
  | ldStVx (x : Nibble)
  /-- FX1E -/
  | addI (x : Nibble)
  /-- FX29 -/
  | ldF (x : Nibble)
  /-- FX33 -/
  | ldB (x : Nibble)
  /-- FX55 -/
  | stRegs (x : Nibble)
  /-- FX65 -/
  | ldRegs (x : Nibble)
  /-- 8XYN with an unrecognised `n` (R98) -/
  | nop8 (x y n : Nibble)
  /-- EXNN with an unrecognised `nn` (R98) -/
  | nopE (x : Nibble) (nn : Byte)
  /-- FXNN with an unrecognised `nn` (R98) -/
  | nopF (x : Nibble) (nn : Byte)
  deriving DecidableEq, Repr

end Sys2Proof
end

