-- ==== Sys2Proof/WellFormed.lean ====
section
/-! DEFINITION. Which terms of `Instr` stand for a word: the operands of the four fallback rows must not spell another row's
discriminator (`30_encoding.md` R97, R98). -/

namespace Sys2Proof

/-- The class-0 words that are not SYS, as values of `NNN` (R97). -/
def class0Rows : List Addr12 := [0x0E0, 0x0EE]

/-- The recognised low nibbles of class 8 (R96 rows 11 to 19). -/
def class8Rows : List Nibble := [0x0, 0x1, 0x2, 0x3, 0x4, 0x5, 0x6, 0x7, 0xE]

/-- The recognised low bytes of class E (R96 rows 25 and 26). -/
def classERows : List Byte := [0x9E, 0xA1]

/-- The recognised low bytes of class F (R96 rows 27 to 35). -/
def classFRows : List Byte := [0x07, 0x0A, 0x15, 0x18, 0x1E, 0x29, 0x33, 0x55, 0x65]

/-- Well-formed: the instruction is the one its own word decodes to. Only the four fallback rows have a condition. -/
def Instr.wf : Instr → Bool
  | .sys nnn => !class0Rows.contains nnn
  | .nop8 _ _ n => !class8Rows.contains n
  | .nopE _ nn => !classERows.contains nn
  | .nopF _ nn => !classFRows.contains nn
  | .cls | .ret | .jp _ | .call _ | .seImm _ _ | .sneImm _ _ | .seReg _ _ _ | .ldImm _ _ | .addImm _ _ => true
  | .ldReg _ _ | .or _ _ | .and _ _ | .xor _ _ | .addReg _ _ | .sub _ _ | .shr _ _ | .subn _ _ | .shl _ _ => true
  | .sneReg _ _ _ | .ldI _ | .jpV0 _ | .rnd _ _ | .drw _ _ _ | .skp _ | .sknp _ => true
  | .ldVxDt _ | .ldVxK _ | .ldDtVx _ | .ldStVx _ | .addI _ | .ldF _ | .ldB _ | .stRegs _ | .ldRegs _ => true

end Sys2Proof
end

