-- ==== Sys2Proof/Decode.lean ====
section
/-! DEFINITION. Words to instructions and back (`30_encoding.md` R90 to R101), and the opcode table as rows. -/

namespace Sys2Proof

/-- `class = iw[15:12]` (R92). -/
def fieldClass (iw : Word) : Nibble := iw.extractLsb' 12 4
/-- `X = iw[11:8]` (R92). -/
def fieldX (iw : Word) : Nibble := iw.extractLsb' 8 4
/-- `Y = iw[7:4]` (R92). -/
def fieldY (iw : Word) : Nibble := iw.extractLsb' 4 4
/-- `N = iw[3:0]` (R92). -/
def fieldN (iw : Word) : Nibble := iw.extractLsb' 0 4
/-- `NN = iw[7:0]` (R92). -/
def fieldNN (iw : Word) : Byte := iw.extractLsb' 0 8
/-- `NNN = iw[11:0]` (R92). -/
def fieldNNN (iw : Word) : Addr12 := iw.extractLsb' 0 12

/-- Class 0: the second level is the full word (R94, R97). -/
def decode0 (iw : Word) : Instr :=
  if fieldNNN iw = 0x0E0 then .cls else if fieldNNN iw = 0x0EE then .ret else .sys (fieldNNN iw)

/-- Class 8: the second level is the low nibble (R94, R96, R98). -/
def decode8 (iw : Word) : Instr :=
  let x := fieldX iw
  let y := fieldY iw
  match fieldN iw with
  | 0x0#4 => .ldReg x y
  | 0x1#4 => .or x y
  | 0x2#4 => .and x y
  | 0x3#4 => .xor x y
  | 0x4#4 => .addReg x y
  | 0x5#4 => .sub x y
  | 0x6#4 => .shr x y
  | 0x7#4 => .subn x y
  | 0xE#4 => .shl x y
  | n => .nop8 x y n

/-- Class E: the second level is the low byte (R94, R96, R98). -/
def decodeE (iw : Word) : Instr :=
  let x := fieldX iw
  match fieldNN iw with
  | 0x9E#8 => .skp x
  | 0xA1#8 => .sknp x
  | nn => .nopE x nn

/-- Class F: the second level is the low byte (R94, R96, R98). -/
def decodeF (iw : Word) : Instr :=
  let x := fieldX iw
  match fieldNN iw with
  | 0x07#8 => .ldVxDt x
  | 0x0A#8 => .ldVxK x
  | 0x15#8 => .ldDtVx x
  | 0x18#8 => .ldStVx x
  | 0x1E#8 => .addI x
  | 0x29#8 => .ldF x
  | 0x33#8 => .ldB x
  | 0x55#8 => .stRegs x
  | 0x65#8 => .ldRegs x
  | nn => .nopF x nn

/-- Decode of a word: first by the class, then by the class's second level (R94). It is total (R101). -/
def decode (iw : Word) : Instr :=
  match fieldClass iw with
  | 0x0#4 => decode0 iw
  | 0x1#4 => .jp (fieldNNN iw)
  | 0x2#4 => .call (fieldNNN iw)
  | 0x3#4 => .seImm (fieldX iw) (fieldNN iw)
  | 0x4#4 => .sneImm (fieldX iw) (fieldNN iw)
  | 0x5#4 => .seReg (fieldX iw) (fieldY iw) (fieldN iw)
  | 0x6#4 => .ldImm (fieldX iw) (fieldNN iw)
  | 0x7#4 => .addImm (fieldX iw) (fieldNN iw)
  | 0x8#4 => decode8 iw
  | 0x9#4 => .sneReg (fieldX iw) (fieldY iw) (fieldN iw)
  | 0xA#4 => .ldI (fieldNNN iw)
  | 0xB#4 => .jpV0 (fieldNNN iw)
  | 0xC#4 => .rnd (fieldX iw) (fieldNN iw)
  | 0xD#4 => .drw (fieldX iw) (fieldY iw) (fieldN iw)
  | 0xE#4 => decodeE iw
  | _ => decodeF iw -- only the class 0xF is left

/-- The two bytes of an instruction make its word, the byte at the lower address in the high half (`20_memory.md` R60). -/
def wordOfBytes (hi lo : Byte) : Word := hi ++ lo

/-- Why a list of bytes holds no instruction. -/
inductive DecodeError where
  /-- Fewer than the two bytes of R90. No word of two bytes is ever rejected (R101). -/
  | truncated
  deriving DecidableEq, Repr

/-- Decode the first instruction of a list of bytes, and the bytes after it. -/
def decodeBytes : List Byte → Except DecodeError (Instr × List Byte)
  | hi :: lo :: rest => .ok (decode (wordOfBytes hi lo), rest)
  | _ => .error .truncated

/-- The word of an operand shape NNN (R91). -/
def encodeNNN (c : Nibble) (nnn : Addr12) : Word := c ++ nnn
/-- The word of an operand shape XNN (R91). -/
def encodeXNN (c x : Nibble) (nn : Byte) : Word := c ++ x ++ nn
/-- The word of an operand shape XYN (R91). -/
def encodeXYN (c x y n : Nibble) : Word := c ++ x ++ y ++ n

/-- The word of an instruction: its pattern of R96 with the operand digits filled in. -/
def encode : Instr → Word
  | .cls => encodeNNN 0x0 0x0E0
  | .ret => encodeNNN 0x0 0x0EE
  | .sys nnn => encodeNNN 0x0 nnn
  | .jp nnn => encodeNNN 0x1 nnn
  | .call nnn => encodeNNN 0x2 nnn
  | .seImm x nn => encodeXNN 0x3 x nn
  | .sneImm x nn => encodeXNN 0x4 x nn
  | .seReg x y n => encodeXYN 0x5 x y n
  | .ldImm x nn => encodeXNN 0x6 x nn
  | .addImm x nn => encodeXNN 0x7 x nn
  | .ldReg x y => encodeXYN 0x8 x y 0x0
  | .or x y => encodeXYN 0x8 x y 0x1
  | .and x y => encodeXYN 0x8 x y 0x2
  | .xor x y => encodeXYN 0x8 x y 0x3
  | .addReg x y => encodeXYN 0x8 x y 0x4
  | .sub x y => encodeXYN 0x8 x y 0x5
  | .shr x y => encodeXYN 0x8 x y 0x6
  | .subn x y => encodeXYN 0x8 x y 0x7
  | .shl x y => encodeXYN 0x8 x y 0xE
  | .sneReg x y n => encodeXYN 0x9 x y n
  | .ldI nnn => encodeNNN 0xA nnn
  | .jpV0 nnn => encodeNNN 0xB nnn
  | .rnd x nn => encodeXNN 0xC x nn
  | .drw x y n => encodeXYN 0xD x y n
  | .skp x => encodeXNN 0xE x 0x9E
  | .sknp x => encodeXNN 0xE x 0xA1
  | .ldVxDt x => encodeXNN 0xF x 0x07
  | .ldVxK x => encodeXNN 0xF x 0x0A
  | .ldDtVx x => encodeXNN 0xF x 0x15
  | .ldStVx x => encodeXNN 0xF x 0x18
  | .addI x => encodeXNN 0xF x 0x1E
  | .ldF x => encodeXNN 0xF x 0x29
  | .ldB x => encodeXNN 0xF x 0x33
  | .stRegs x => encodeXNN 0xF x 0x55
  | .ldRegs x => encodeXNN 0xF x 0x65
  | .nop8 x y n => encodeXYN 0x8 x y n
  | .nopE x nn => encodeXNN 0xE x nn
  | .nopF x nn => encodeXNN 0xF x nn

/-- `mask` and `match` of an instruction's row of the opcode table (`30_encoding.md` R95, R96): a word `iw` matches the row
when `iw AND mask = match`. -/
def Instr.row : Instr → Word × Word
  | .cls => (0xFFFF, 0x00E0)
  | .ret => (0xFFFF, 0x00EE)
  | .sys _ => (0xF000, 0x0000)
  | .jp _ => (0xF000, 0x1000)
  | .call _ => (0xF000, 0x2000)
  | .seImm _ _ => (0xF000, 0x3000)
  | .sneImm _ _ => (0xF000, 0x4000)
  | .seReg _ _ _ => (0xF000, 0x5000)
  | .ldImm _ _ => (0xF000, 0x6000)
  | .addImm _ _ => (0xF000, 0x7000)
  | .ldReg _ _ => (0xF00F, 0x8000)
  | .or _ _ => (0xF00F, 0x8001)
  | .and _ _ => (0xF00F, 0x8002)
  | .xor _ _ => (0xF00F, 0x8003)
  | .addReg _ _ => (0xF00F, 0x8004)
  | .sub _ _ => (0xF00F, 0x8005)
  | .shr _ _ => (0xF00F, 0x8006)
  | .subn _ _ => (0xF00F, 0x8007)
  | .shl _ _ => (0xF00F, 0x800E)
  | .sneReg _ _ _ => (0xF000, 0x9000)
  | .ldI _ => (0xF000, 0xA000)
  | .jpV0 _ => (0xF000, 0xB000)
  | .rnd _ _ => (0xF000, 0xC000)
  | .drw _ _ _ => (0xF000, 0xD000)
  | .skp _ => (0xF0FF, 0xE09E)
  | .sknp _ => (0xF0FF, 0xE0A1)
  | .ldVxDt _ => (0xF0FF, 0xF007)
  | .ldVxK _ => (0xF0FF, 0xF00A)
  | .ldDtVx _ => (0xF0FF, 0xF015)
  | .ldStVx _ => (0xF0FF, 0xF018)
  | .addI _ => (0xF0FF, 0xF01E)
  | .ldF _ => (0xF0FF, 0xF029)
  | .ldB _ => (0xF0FF, 0xF033)
  | .stRegs _ => (0xF0FF, 0xF055)
  | .ldRegs _ => (0xF0FF, 0xF065)
  | .nop8 _ _ _ => (0xF000, 0x8000)
  | .nopE _ _ => (0xF000, 0xE000)
  | .nopF _ _ => (0xF000, 0xF000)

/-- The 38 rows (mask, match) of the opcode table, those with more 1 bits in the mask first, so that the FIRST row a word
matches is the one R95 chooses. -/
def opcodeRows : List (Word × Word) :=
  [(0xFFFF, 0x00E0), (0xFFFF, 0x00EE)] ++
  [(0xF0FF, 0xE09E), (0xF0FF, 0xE0A1)] ++
  [(0xF0FF, 0xF007), (0xF0FF, 0xF00A), (0xF0FF, 0xF015), (0xF0FF, 0xF018), (0xF0FF, 0xF01E), (0xF0FF, 0xF029),
   (0xF0FF, 0xF033), (0xF0FF, 0xF055), (0xF0FF, 0xF065)] ++
  [(0xF00F, 0x8000), (0xF00F, 0x8001), (0xF00F, 0x8002), (0xF00F, 0x8003), (0xF00F, 0x8004), (0xF00F, 0x8005),
   (0xF00F, 0x8006), (0xF00F, 0x8007), (0xF00F, 0x800E)] ++
  [(0xF000, 0x0000), (0xF000, 0x1000), (0xF000, 0x2000), (0xF000, 0x3000), (0xF000, 0x4000), (0xF000, 0x5000),
   (0xF000, 0x6000), (0xF000, 0x7000), (0xF000, 0x8000), (0xF000, 0x9000), (0xF000, 0xA000), (0xF000, 0xB000),
   (0xF000, 0xC000), (0xF000, 0xD000), (0xF000, 0xE000), (0xF000, 0xF000)]

/-- Whether a word matches a row (R95). -/
def rowMatches (iw : Word) (r : Word × Word) : Bool := (iw &&& r.1) == r.2

/-- The instruction the decoder reads from an instruction of `nbits` bits whose bits are `w`; bits above `nbits` are 0. The
bytes are laid out high byte first (`20_memory.md` R60). -/
def decodeTableWord (nbits w : Nat) : Option Instr :=
  let iw : Word := BitVec.ofNat 16 (w % 2 ^ nbits)
  match decodeBytes [iw.extractLsb' 8 8, iw.extractLsb' 0 8] with
  | .ok (i, _) => some i
  | .error _ => none

end Sys2Proof
end

