-- ==== Sys2Proof/Machine/Memory.lean ====
section
/-! DEFINITION. The operations on memory (`10_state.md` R38; `20_memory.md` R67, R68; `00_scope.md` R10). -/

namespace Sys2Proof.Machine

/-- What memory address `a` holds at reset, and so what an address that `Memory` does not list reads as: the glyph table at
0x050 to 0x09F (`10_state.md` R45) and 0 elsewhere (`20_memory.md` R69, D17, UNVERIFIED, log 5). -/
def resetByte (g : GlyphTable) (a : Nat) : Byte := if glyphBase ≤ a then g[a - glyphBase]?.getD 0 else 0

/-- The canonical form of a memory over the reset contents with the glyph table `g`. -/
abbrev Memory.wf (g : GlyphTable) (m : Memory) : Prop :=
  m.cells.Pairwise (fun c d => c.1 < d.1) ∧ ∀ c ∈ m.cells, c.1 < memSize ∧ c.2 ≠ resetByte g c.1

/-- The byte a list of cells holds for an address, if it lists it. -/
def findCell (a : Nat) : List Host.Cell → Option Byte
  | [] => none
  | c :: cs => if c.1 = a then some c.2 else findCell a cs

/-- List the byte `b` for the address `a`, in order, in place of the one listed before. -/
def putCell (a : Nat) (b : Byte) : List Host.Cell → List Host.Cell
  | [] => [(a, b)]
  | c :: cs =>
    if a < c.1 then (a, b) :: c :: cs
    else if a = c.1 then (a, b) :: cs
    else c :: putCell a b cs

/-- `MEM[a]` for an address `a` of the store; the bound is checked by `State.read?` and `State.fetch`. -/
def Memory.byte (g : GlyphTable) (m : Memory) (a : Nat) : Byte := (findCell a m.cells).getD (resetByte g a)

/-- `MEM[a] <- b`, keeping the canonical form; outside the store there is nothing to write (`State.write?` checks the bound). -/
def Memory.setByte (g : GlyphTable) (m : Memory) (a : Nat) (b : Byte) : Memory :=
  if memSize ≤ a then m
  else if b = resetByte g a then { cells := m.cells.filter (fun c => c.1 ≠ a) }
  else { cells := putCell a b m.cells }

/-- Write bytes at ascending addresses from `a` (R61). -/
def Memory.setBytes (g : GlyphTable) (m : Memory) (a : Nat) : List Byte → Memory
  | [] => m
  | b :: bs => (m.setByte g a b).setBytes g (a + 1) bs

/-- Whether `n` byte accesses from `a` upward all lie in the store: the highest address decides, and no access at all is always
in it (R68). The sum does not wrap (R67). -/
def inStore (a n : Nat) : Bool := n == 0 || a + n ≤ memSize

/-- `MEM[a]` of a machine, for an address `a` of the store. -/
def State.byte (s : State) (a : Nat) : Byte := s.mem.byte s.cfg.glyphTable a

/-- `MEM[a], MEM[a + 1], ... <- bs` in a machine, for addresses of the store (R61). -/
def State.writeBytes (s : State) (a : Nat) (bs : List Byte) : State :=
  { s with mem := s.mem.setBytes s.cfg.glyphTable a bs }

/-- `MemRead` of `n` bytes from `a` upward (R10, R61); none where it raises (R67, R68). -/
def State.read? (s : State) (a n : Nat) : Option (List Byte) :=
  if inStore a n then some ((List.range n).map fun k => s.byte (a + k)) else none

/-- `MemWrite` of bytes from `a` upward (R10, R61); none where it raises, before any write (R67, R68). -/
def State.write? (s : State) (a : Nat) (bs : List Byte) : Option State :=
  if inStore a bs.length then some (s.writeBytes a bs) else none

end Sys2Proof.Machine
end

