-- ==== Sys2Proof/Machine/Ops.lean ====
section
/-! DEFINITION. The named operations on the state that the meanings share: registers, the program counter, taking a fault, the
call stack, the frame buffer, the key latch, the timers, and fetching a word. -/

namespace Sys2Proof.Machine

/-! ## Registers -/

/-- `V[x]` (`10_state.md` R21). -/
def State.reg (s : State) (x : Nibble) : Byte := s.v[x.toNat]'x.isLt

/-- `V[x] <- b` (R21). -/
def State.setReg (s : State) (x : Nibble) (b : Byte) : State := { s with v := s.v.set x.toNat b x.isLt }

/-- The result and the flag of 8XY4, 8XY5, 8XY6, 8XY7, 8XYE: the result first and `VF` last (`43_alu.md` R186). -/
def State.setResultFlag (s : State) (x : Nibble) (result flag : Byte) : State :=
  (s.setReg x result).setReg 0xF#4 flag

/-- `V[0] .. V[bs.length - 1] <- bs`, the registers above unchanged (`44_index_memory.md` R224). -/
def State.setRegs (s : State) (bs : List Byte) : State :=
  { s with v := Vector.ofFn fun k : Fin 16 => bs.getD k.val s.v[k] }

/-! ## The program counter -/

/-- `PC` after the fetch advance: `a + 2`, or `a` while paused (`40_step_cycle.md` R123). -/
def State.nextPc (s : State) : Word := if s.paused then s.pc else s.pc + 2

/-- The fetch advance of `PC` (R123). A meaning starts from the state before the step and makes it itself (log 11). -/
def State.advance (s : State) : State := { s with pc := s.nextPc }

/-- `PC <- target`. -/
def State.jump (s : State) (target : Word) : State := { s with pc := target }

/-- A skip: `PC <- PC + 2` when the condition holds (`42_skips.md` R168). -/
def State.skipIf (s : State) (cond : Bool) : State := if cond then s.jump (s.pc + 2) else s

/-! ## Taking a fault -/

/-- `raise`: the step ends in the state it began in, with the cause in `FAULT` (`60_exceptions.md` R273, R274). A meaning
applies it to the state before the step, so every write of the step is discarded, the advance of `PC` included. -/
def State.raise (s : State) (c : Cause) : Host.Outcome State Fault Refusal := .next { s with fault := c }

/-- The codes of the causes, the value of the 3-bit latch (R271, R272). -/
def Cause.code : Cause → BitVec 3
  | .none => 0
  | .fetchOutOfBounds => 1
  | .memOutOfBounds => 2
  | .stackUnderflow => 3
  | .stackOverflow => 4
  | .keyIndexOutOfRange => 5

/-! ## The call stack -/

/-- `SP`, the number of entries in use (`10_state.md` R35). -/
def State.sp (s : State) : Nat := s.stack.length

/-- `Push(v)`; none where it raises `StackOverflow`, when `SP = STACK_DEPTH` (R36). -/
def State.push? (s : State) (v : Word) : Option State :=
  if s.sp = s.cfg.stackDepth then none else some { s with stack := s.stack ++ [v] }

/-- `Pop()`: the most recent entry and the state without it; none where it raises `StackUnderflow`, when `SP = 0` (R37). -/
def State.pop? (s : State) : Option (Word × State) :=
  s.stack.getLast?.map fun t => (t, { s with stack := s.stack.dropLast })

/-! ## The frame buffer -/

/-- `FB[x mod 64][y mod 32]` (`10_state.md` R40). -/
def fbPixel (fb : FrameBuffer) (x y : Nat) : Bool := (fb[y % 32]'(Nat.mod_lt y (by decide))).getLsbD (x % 64)

/-- `FbClear()` (R41). -/
def fbClear : FrameBuffer := Vector.replicate 32 0

/-- `FbToggle(cx, cy)`: the buffer with the one pixel inverted, and the pixel's old value (R41). -/
def fbToggle (fb : FrameBuffer) (cx cy : Nat) : FrameBuffer × Bool :=
  (fb.set (cy % 32) ((fb[cy % 32]'(Nat.mod_lt cy (by decide))) ^^^ BitVec.twoPow 64 (cx % 64)) (Nat.mod_lt cy (by decide)),
   fbPixel fb cx cy)

/-- `FbToggle` at each (column, row) of a list, moved by (`vx`, `vy`); the second part says whether any of those pixels was lit
when it was toggled (`45_display.md` R232). -/
def fbDraw (fb : FrameBuffer) (vx vy : Nat) : List (Nat × Nat) → FrameBuffer × Bool
  | [] => (fb, false)
  | p :: ps =>
    let first := fbToggle fb (vx + p.1) (vy + p.2)
    let rest := fbDraw first.1 vx vy ps
    (rest.1, first.2 || rest.2)

/-! ## The key latch -/

/-- `KEYS[k]`; none when there is no key of that number (`46_keypad_timers.md` R254). -/
def State.keyDown? (s : State) (k : Byte) : Option Bool := s.keys[k.toNat]?

/-- `AnyKey()`: the least `k` with `KEYS[k] = 1`, or none (`10_state.md` R43). -/
def State.anyKey (s : State) : Option Nat := s.keys.toList.findIdx? id

/-! ## The step around an instruction -/

/-- One timer's decay: by one, not below zero (`40_step_cycle.md` R127). -/
def decayTimer (t : Byte) : Byte := if t = 0 then 0 else t - 1

/-- The decay of both timers (R127). -/
def State.decay (s : State) : State := { s with dt := decayTimer s.dt, st := decayTimer s.st }

/-- What follows execute: the timers decay, unless the instruction raised (R120, R127, R130). -/
def State.finish (s : State) : State := if s.fault = .none then s.decay else s

/-- Fetch: the big-endian word at `PC` and `PC + 1`; none where it raises, when `PC + 1 > 4095` (R121, R122). -/
def State.fetch (s : State) : Option Word :=
  if s.pc.toNat + 1 < memSize then
    some (wordOfBytes (s.byte s.pc.toNat) (s.byte (s.pc.toNat + 1)))
  else none

end Sys2Proof.Machine
end

