-- ==== Sys2Proof/Machine/Operands.lean ====
section
/-! DEFINITION. Every operand form of the machine: the values and addresses an instruction computes from its fields before it
writes anything (`30_encoding.md` R93; `44_index_memory.md` R209). Register operands are `State.reg`. -/

namespace Sys2Proof.Machine

/-- `NNN` as a 16-bit value, zeros above (R93). -/
def absAddr (nnn : Addr12) : Word := nnn.setWidth 16

/-- The target of BNNN: `V[0] + NNN` in 16 bits (`41_control_flow.md` R148). -/
def State.offsetTarget (s : State) (nnn : Addr12) : Word := (s.reg 0#4).setWidth 16 + absAddr nnn

/-- The first effective address of an access, `EA(0) = I`, an unbounded natural (R209). -/
def State.ea (s : State) : Nat := s.i.toNat

/-- The value the shifts 8XY6 and 8XYE shift: `V[Y]` in legacy mode, else `V[X]` (`43_alu.md` R195). -/
def State.shiftSource (s : State) (x y : Nibble) : Byte :=
  if s.cfg.legacyShiftSource then s.reg y else s.reg x

/-- `rand8()`: the byte the next draw gives, a free value (R201, log 6). -/
def State.rand8 (s : State) : Byte := Config.rand8 s.draws

/-- The state after one draw. -/
def State.drawn (s : State) : State := { s with draws := s.draws + 1 }

/-- `(I + V[X]) mod 65536` (`44_index_memory.md` R212). -/
def State.indexPlus (s : State) (x : Nibble) : Word := s.i + (s.reg x).setWidth 16

/-- `v * 5 + 0x50`, the address of a glyph; the whole byte is used (R214). -/
def glyphAddr (v : Byte) : Word := BitVec.ofNat 16 (v.toNat * 5 + glyphBase)

/-- The decimal digits of a byte: hundreds, tens, units (R216). -/
def bcdDigits (v : Byte) : List Byte :=
  [BitVec.ofNat 8 (v.toNat / 100), BitVec.ofNat 8 (v.toNat / 10 % 10), BitVec.ofNat 8 (v.toNat % 10)]

/-- `V[0] .. V[x]`, in order (R222). -/
def State.regsThrough (s : State) (x : Nibble) : List Byte := s.v.toList.take (x.toNat + 1)

/-- The (column, row) of every set bit of a sprite's rows, rows outer and columns inner; bit 7 of a byte is column 0
(`45_display.md` R232, R235, UNVERIFIED, log 22). -/
def spriteBits (rows : List Byte) : List (Nat × Nat) :=
  rows.zipIdx.flatMap fun p => ((List.range 8).filter fun c => p.1.getLsbD (7 - c)).map fun c => (c, p.2)

end Sys2Proof.Machine
end

