-- ==== Sys2Proof/Machine/Alu.lean ====
section
/-! DEFINITION. Meanings of the register loads, the 8-bit arithmetic and logic, the shifts and the random byte (`43_alu.md`). -/

namespace Sys2Proof.Machine

/-- LD Vx, byte (6XNN) (R180). -/
def execLdImm (x : Nibble) (nn : Byte) (s : State) : Host.Outcome State Fault Refusal := .next (s.advance.setReg x nn)

/-- ADD Vx, byte (7XNN): modulo 256, no flag (R181). -/
def execAddImm (x : Nibble) (nn : Byte) (s : State) : Host.Outcome State Fault Refusal :=
  .next (s.advance.setReg x (s.reg x + nn))

/-- LD Vx, Vy (8XY0) (R182). -/
def execLdReg (x y : Nibble) (s : State) : Host.Outcome State Fault Refusal := .next (s.advance.setReg x (s.reg y))

/-- OR Vx, Vy (8XY1): no flag (R183). -/
def execOr (x y : Nibble) (s : State) : Host.Outcome State Fault Refusal := .next (s.advance.setReg x (s.reg x ||| s.reg y))

/-- AND Vx, Vy (8XY2): no flag (R184). -/
def execAnd (x y : Nibble) (s : State) : Host.Outcome State Fault Refusal := .next (s.advance.setReg x (s.reg x &&& s.reg y))

/-- XOR Vx, Vy (8XY3): no flag (R185). -/
def execXor (x y : Nibble) (s : State) : Host.Outcome State Fault Refusal := .next (s.advance.setReg x (s.reg x ^^^ s.reg y))

/-- ADD Vx, Vy (8XY4) (R187). -/
def execAddReg (x y : Nibble) (s : State) : Host.Outcome State Fault Refusal :=
  .next (s.advance.setResultFlag x (s.reg x + s.reg y) (carryFlag (s.reg x) (s.reg y)))

/-- SUB Vx, Vy (8XY5) (R188). -/
def execSub (x y : Nibble) (s : State) : Host.Outcome State Fault Refusal :=
  .next (s.advance.setResultFlag x (s.reg x - s.reg y) (notBorrowFlag (s.reg x) (s.reg y)))

/-- SHR Vx, Vy (8XY6) (R189). -/
def execShr (x y : Nibble) (s : State) : Host.Outcome State Fault Refusal :=
  .next (s.advance.setResultFlag x (s.shiftSource x y >>> 1) (shrFlag (s.shiftSource x y)))

/-- SUBN Vx, Vy (8XY7) (R190). -/
def execSubn (x y : Nibble) (s : State) : Host.Outcome State Fault Refusal :=
  .next (s.advance.setResultFlag x (s.reg y - s.reg x) (notBorrowFlag (s.reg y) (s.reg x)))

/-- SHL Vx, Vy (8XYE) (R191). -/
def execShl (x y : Nibble) (s : State) : Host.Outcome State Fault Refusal :=
  .next (s.advance.setResultFlag x (s.shiftSource x y <<< 1) (shlFlagOf s.cfg.shlFlag (s.shiftSource x y)))

/-- RND Vx, byte (CXNN): one draw, masked (R200). -/
def execRnd (x : Nibble) (nn : Byte) (s : State) : Host.Outcome State Fault Refusal :=
  .next (s.advance.drawn.setReg x (s.rand8 &&& nn))

end Sys2Proof.Machine
end

