-- ==== Sys2Proof/Machine/Control.lean ====
section
/-! DEFINITION. Meanings of the no-ops and of control flow (`41_control_flow.md`; `40_step_cycle.md` R126). Every meaning takes
the state BEFORE the step, `PC` at the instruction's own address, and makes the fetch advance itself; the timers decay after
it, in `State.finish`. -/

namespace Sys2Proof.Machine

/-- SYS (0NNN): a no-op (R140, R141). -/
def execSys (s : State) : Host.Outcome State Fault Refusal := .next s.advance

/-- NOP8: a class-8 word with an unrecognised N is a no-op (R126). -/
def execNop8 (s : State) : Host.Outcome State Fault Refusal := .next s.advance

/-- NOPE: a class-E word with an unrecognised NN is a no-op (R126). -/
def execNopE (s : State) : Host.Outcome State Fault Refusal := .next s.advance

/-- NOPF: a class-F word with an unrecognised NN is a no-op (R126). -/
def execNopF (s : State) : Host.Outcome State Fault Refusal := .next s.advance

/-- RET (00EE): pop into `PC`, whole; `StackUnderflow` on an empty stack (R142). -/
def execRet (s : State) : Host.Outcome State Fault Refusal :=
  match s.advance.pop? with
  | some (t, u) => .next (u.jump t)
  | none => s.raise .stackUnderflow

/-- JP (1NNN): `PC <- NNN` (R144). -/
def execJp (nnn : Addr12) (s : State) : Host.Outcome State Fault Refusal := .next (s.advance.jump (absAddr nnn))

/-- CALL (2NNN): push the advanced `PC`, then `PC <- NNN`; `StackOverflow` on a full stack (R146). -/
def execCall (nnn : Addr12) (s : State) : Host.Outcome State Fault Refusal :=
  match s.advance.push? s.advance.pc with
  | some t => .next (t.jump (absAddr nnn))
  | none => s.raise .stackOverflow

/-- JP V0 (BNNN): `PC <- V[0] + NNN` (R148). -/
def execJpV0 (nnn : Addr12) (s : State) : Host.Outcome State Fault Refusal := .next (s.advance.jump (s.offsetTarget nnn))

end Sys2Proof.Machine
end

