-- ==== Sys2Proof/Machine/Display.lean ====
section
/-! DEFINITION. Meanings of the frame-buffer instructions (`45_display.md`). -/

namespace Sys2Proof.Machine

/-- `FB <- fb`. -/
def State.setFb (s : State) (fb : FrameBuffer) : State := { s with fb := fb }

/-- CLS (00E0) (R230). -/
def execCls (s : State) : Host.Outcome State Fault Refusal := .next (s.advance.setFb fbClear)

/-- DRW Vx, Vy, nibble (DXYN): the coordinates are read before `VF` is written (R232, R234, UNVERIFIED, log 10). -/
def execDrw (x y n : Nibble) (s : State) : Host.Outcome State Fault Refusal :=
  match s.read? s.ea n.toNat with
  | some rows =>
    let drawn := fbDraw s.fb (s.reg x).toNat (s.reg y).toNat (spriteBits rows)
    .next ((s.advance.setFb drawn.1).setReg 0xF#4 (flagByte drawn.2))
  | none => s.raise .memOutOfBounds

end Sys2Proof.Machine
end

