-- ==== Sys2Proof/Machine/IndexMemory.lean ====
section
/-! DEFINITION. Meanings of the index-register instructions and of the loads and stores (`44_index_memory.md`). -/

namespace Sys2Proof.Machine

/-- `I <- v`. -/
def State.setI (s : State) (v : Word) : State := { s with i := v }

/-- LD I, addr (ANNN) (R210). -/
def execLdI (nnn : Addr12) (s : State) : Host.Outcome State Fault Refusal := .next (s.advance.setI (absAddr nnn))

/-- ADD I, Vx (FX1E): modulo 65536, no flag (R212). -/
def execAddI (x : Nibble) (s : State) : Host.Outcome State Fault Refusal := .next (s.advance.setI (s.indexPlus x))

/-- LD F, Vx (FX29) (R214). -/
def execLdF (x : Nibble) (s : State) : Host.Outcome State Fault Refusal := .next (s.advance.setI (glyphAddr (s.reg x)))

/-- A store of bytes from `I` upward: all of them, or `MemOutOfBounds` and none (R216, R222, `20_memory.md` R68). -/
def State.storeAtI (s : State) (bs : List Byte) : Host.Outcome State Fault Refusal :=
  match s.write? s.ea bs with
  | some t => .next t.advance
  | none => s.raise .memOutOfBounds

/-- LD B, Vx (FX33) (R216). -/
def execLdB (x : Nibble) (s : State) : Host.Outcome State Fault Refusal := s.storeAtI (bcdDigits (s.reg x))

/-- LD [I], Vx (FX55) (R222). -/
def execStRegs (x : Nibble) (s : State) : Host.Outcome State Fault Refusal := s.storeAtI (s.regsThrough x)

/-- LD Vx, [I] (FX65) (R224). -/
def execLdRegs (x : Nibble) (s : State) : Host.Outcome State Fault Refusal :=
  match s.read? s.ea (x.toNat + 1) with
  | some bs => .next (s.advance.setRegs bs)
  | none => s.raise .memOutOfBounds

end Sys2Proof.Machine
end

