-- ==== Sys2Proof/Machine/KeypadTimers.lean ====
section
/-! DEFINITION. Meanings of the keypad and timer instructions (`46_keypad_timers.md`). -/

namespace Sys2Proof.Machine

/-- SKP Vx (EX9E); a key number above 15 is `KeyIndexOutOfRange` (R250, R254, UNVERIFIED, log 8). -/
def execSkp (x : Nibble) (s : State) : Host.Outcome State Fault Refusal :=
  match s.keyDown? (s.reg x) with
  | some down => .next (s.advance.skipIf down)
  | none => s.raise .keyIndexOutOfRange

/-- SKNP Vx (EXA1); a key number above 15 is `KeyIndexOutOfRange` (R252, R254, UNVERIFIED, log 8). -/
def execSknp (x : Nibble) (s : State) : Host.Outcome State Fault Refusal :=
  match s.keyDown? (s.reg x) with
  | some down => .next (s.advance.skipIf (!down))
  | none => s.raise .keyIndexOutOfRange

/-- LD Vx, K (FX0A): with no key down it pauses on its own address; else it takes the lowest key and goes on after itself,
paused or not (R256, R257, UNVERIFIED, log 7). -/
def execLdVxK (x : Nibble) (s : State) : Host.Outcome State Fault Refusal :=
  match s.anyKey with
  | none => .next { s with paused := true }
  | some k => .next ({ s with paused := false, pc := s.pc + 2 }.setReg x (BitVec.ofNat 8 k))

/-- LD Vx, DT (FX07): the value before this step's decay (R259, R128). -/
def execLdVxDt (x : Nibble) (s : State) : Host.Outcome State Fault Refusal := .next (s.advance.setReg x s.dt)

/-- LD DT, Vx (FX15) (R260). -/
def execLdDtVx (x : Nibble) (s : State) : Host.Outcome State Fault Refusal := .next { s.advance with dt := s.reg x }

/-- LD ST, Vx (FX18) (R262). -/
def execLdStVx (x : Nibble) (s : State) : Host.Outcome State Fault Refusal := .next { s.advance with st := s.reg x }

end Sys2Proof.Machine
end

