-- ==== Sys2Proof/Machine/Skips.lean ====
section
/-! DEFINITION. Meanings of the four register skips (`42_skips.md`). -/

namespace Sys2Proof.Machine

/-- SE Vx, byte (3XNN) (R160). -/
def execSeImm (x : Nibble) (nn : Byte) (s : State) : Host.Outcome State Fault Refusal :=
  .next (s.advance.skipIf (s.reg x == nn))

/-- SNE Vx, byte (4XNN) (R162). -/
def execSneImm (x : Nibble) (nn : Byte) (s : State) : Host.Outcome State Fault Refusal :=
  .next (s.advance.skipIf (s.reg x != nn))

/-- SE Vx, Vy (5XYN); N is not examined (R164, R100, UNVERIFIED, log 9). -/
def execSeReg (x y : Nibble) (s : State) : Host.Outcome State Fault Refusal :=
  .next (s.advance.skipIf (s.reg x == s.reg y))

/-- SNE Vx, Vy (9XYN); N is not examined (R166, R100, UNVERIFIED, log 9). -/
def execSneReg (x y : Nibble) (s : State) : Host.Outcome State Fault Refusal :=
  .next (s.advance.skipIf (s.reg x != s.reg y))

end Sys2Proof.Machine
end

