-- ==== Sys2Proof/Machine/Step.lean ====
section
/-! DEFINITION. The one transition of the machine (`40_step_cycle.md` R120), and where it fetches its next instruction. -/

namespace Sys2Proof.Machine

/-- One step: nothing while `FAULT` is set (R129); else fetch, which may raise (R122), decode, execute, and the timer decay of
an instruction that did not raise (R127, R130). -/
def step (s : State) : Host.Outcome State Fault Refusal :=
  if s.fault ≠ .none then .next s
  else
    match s.fetch with
    | none => s.raise .fetchOutOfBounds
    | some iw =>
      match exec (decode iw) s with
      | .next t => .next t.finish
      | .fault r => .fault r
      | .refused r => .refused r

/-- The state with the instruction word `w` (bits above `nbits` are 0) stored where the next step fetches: at `PC` and `PC + 1`,
high byte first (`20_memory.md` R60). At reset this stands for the program load (`70_reset_and_hazards.md` R316, log 21). -/
def State.withFetchWord (s : State) (nbits w : Nat) : State :=
  let iw : Word := BitVec.ofNat 16 (w % 2 ^ nbits)
  s.writeBytes s.pc.toNat [iw.extractLsb' 8 8, iw.extractLsb' 0 8]

end Sys2Proof.Machine
end

