-- ==== Sys2Proof/Machine/HostPort.lean ====
section
/-! DEFINITION. What the host may do to the machine between steps (`60_exceptions.md` R294 to R298; `70_reset_and_hazards.md`
R310, R316, R317). None of it happens inside a step. -/

namespace Sys2Proof

/-- How many bytes from `I` upward an instruction reads or writes (`20_memory.md` R65). -/
def Instr.accessLength : Instr → Nat
  | .drw _ _ n => n.toNat
  | .ldB _ => 3
  | .stRegs x => x.toNat + 1
  | .ldRegs x => x.toNat + 1
  | _ => 0

end Sys2Proof

namespace Sys2Proof.Machine

/-- Reset between steps: the reset state of the same machine, whose parameters stay (R310, UNVERIFIED, log 5). The count of
draws goes on, since the random source is no architectural state (`10_state.md` R44). -/
def State.hostReset (s : State) : State := { State.resetWith s.cfg with draws := s.draws }

/-- Program load: the image copied verbatim from 0x200 (R316); an over-long image is refused whole (R317, UNVERIFIED, log 17). -/
def State.load (s : State) (image : List Byte) : State :=
  if image.length ≤ maxProgram then s.writeBytes progOrigin image else s

/-- Key write: `KEYS[k] <- down` (R295). -/
def State.keyWrite (s : State) (k : Nibble) (down : Bool) : State := { s with keys := s.keys.set k.toNat down k.isLt }

/-- Frame-buffer read: `FB[x][y]` (R296). -/
def State.fbRead (s : State) (x y : Nat) : Bool := fbPixel s.fb x y

/-- `fault_out`: the 3-bit latch (`10_state.md` R47, R272). -/
def State.faultOut (s : State) : BitVec 3 := s.fault.code

/-- The diagnostic `info` of the fault the machine is stuck in, recomputed from the unchanged state (R271, R275). -/
def State.faultInfo (s : State) : Option Nat :=
  match s.fault with
  | .none => none
  | .fetchOutOfBounds => some s.pc.toNat
  | .memOutOfBounds => s.fetch.map fun iw => s.ea + (decode iw).accessLength - 1
  | .stackUnderflow => none
  | .stackOverflow => some s.nextPc.toNat
  | .keyIndexOutOfRange => s.fetch.map fun iw => (s.reg (fieldX iw)).toNat

/-- One operation of the host that changes the machine or makes it move (R294). -/
inductive HostOp where
  /-- reset, between steps (R310) -/
  | reset
  /-- program load, once after reset and before the first step (R316) -/
  | load (image : List Byte)
  /-- key write, between steps (R295) -/
  | keyWrite (k : Nibble) (down : Bool)
  /-- one step (R120) -/
  | step
  deriving DecidableEq, Repr

/-- The effect of one host operation. -/
def State.hostDo (s : State) : HostOp → Host.Outcome State Fault Refusal
  | .reset => .next s.hostReset
  | .load image => .next (s.load image)
  | .keyWrite k down => .next (s.keyWrite k down)
  | .step => step s

/-- One tick of the driver: the key writes, then one step (`00_scope.md` R12; `20_memory.md` R73). -/
def State.tick (s : State) (writes : List (Nibble × Bool)) : Host.Outcome State Fault Refusal :=
  step (writes.foldl (fun t w => t.keyWrite w.1 w.2) s)

end Sys2Proof.Machine
end

