-- ==== Sys2Proof/Safety.lean ====
section
/-! DEFINITION. The terms the claims are stated in: parts of the state and frames, the fault an instruction has cause for, the
invariant of the machine, and the states a host can bring it to. -/

namespace Sys2Proof.Machine

/-- The parts of the state a frame speaks of. -/
inductive Part where
  | regs | i | pc | dt | st | paused | mem | stack | fb | keys | fault | cfg | draws
  deriving DecidableEq, Repr

/-- `s` and `t` agree on a part; on memory, byte by byte. -/
def State.agrees (s t : State) : Part → Prop
  | .regs => ∀ y, t.reg y = s.reg y
  | .i => t.i = s.i
  | .pc => t.pc = s.pc
  | .dt => t.dt = s.dt
  | .st => t.st = s.st
  | .paused => t.paused = s.paused
  | .mem => ∀ a, t.byte a = s.byte a
  | .stack => t.stack = s.stack
  | .fb => t.fb = s.fb
  | .keys => t.keys = s.keys
  | .fault => t.fault = s.fault
  | .cfg => t.cfg = s.cfg
  | .draws => t.draws = s.draws

/-- From `s` to `t` every part is unchanged except those listed (the frame rule, `00_scope.md` R11). -/
def State.sameExcept (s : State) (changed : List Part) (t : State) : Prop := ∀ p, p ∉ changed → s.agrees t p

end Sys2Proof.Machine

namespace Sys2Proof

open Machine

/-- The parts an instruction may write when it raises nothing: those its rule's pseudocode writes, and `PC`. -/
def Instr.writes : Instr → List Part
  | .cls => [.pc, .fb]
  | .ret | .call _ => [.pc, .stack]
  | .sys _ | .jp _ | .jpV0 _ | .nop8 _ _ _ | .nopE _ _ | .nopF _ _ => [.pc]
  | .seImm _ _ | .sneImm _ _ | .seReg _ _ _ | .sneReg _ _ _ | .skp _ | .sknp _ => [.pc]
  | .ldImm _ _ | .addImm _ _ | .ldReg _ _ | .or _ _ | .and _ _ | .xor _ _ => [.pc, .regs]
  | .addReg _ _ | .sub _ _ | .shr _ _ | .subn _ _ | .shl _ _ => [.pc, .regs]
  | .rnd _ _ => [.pc, .regs, .draws]
  | .ldI _ | .addI _ | .ldF _ => [.pc, .i]
  | .drw _ _ _ => [.pc, .regs, .fb]
  | .ldVxDt _ | .ldRegs _ => [.pc, .regs]
  | .ldVxK _ => [.pc, .regs, .paused]
  | .ldDtVx _ => [.pc, .dt]
  | .ldStVx _ => [.pc, .st]
  | .ldB _ | .stRegs _ => [.pc, .mem]

/-- The registers an instruction may write when it raises nothing. -/
def Instr.destRegs : Instr → List Nibble
  | .ldImm x _ | .addImm x _ | .ldReg x _ | .or x _ | .and x _ | .xor x _ | .rnd x _ | .ldVxDt x | .ldVxK x => [x]
  | .addReg x _ | .sub x _ | .shr x _ | .subn x _ | .shl x _ => [x, 0xF#4]
  | .drw _ _ _ => [0xF#4]
  | .ldRegs x => (List.range (x.toNat + 1)).map (BitVec.ofNat 4)
  | _ => []

/-- The fault an instruction has cause for in a state, by the table of `60_exceptions.md` R271. -/
def Instr.cause (s : State) : Instr → Cause
  | .ret => if s.sp = 0 then .stackUnderflow else .none
  | .call _ => if s.sp = s.cfg.stackDepth then .stackOverflow else .none
  | .drw _ _ n => if 1 ≤ n.toNat ∧ 4095 < s.i.toNat + n.toNat - 1 then .memOutOfBounds else .none
  | .ldB _ => if 4095 < s.i.toNat + 2 then .memOutOfBounds else .none
  | .stRegs x | .ldRegs x => if 4095 < s.i.toNat + x.toNat then .memOutOfBounds else .none
  | .skp x | .sknp x => if 15 < (s.reg x).toNat then .keyIndexOutOfRange else .none
  | _ => .none

end Sys2Proof

namespace Sys2Proof.Machine

/-- The machine stands at an FX0A (`40_step_cycle.md` R125). -/
def State.atKeyWait (s : State) : Prop := ∃ iw x, s.fetch = some iw ∧ decode iw = .ldVxK x

/-- What every state a host can bring the machine to satisfies: memory in its canonical form, the stack within its depth and
holding addresses up to 0x1000, `PC` at most 0x10FE (`10_state.md` R26), and paused only at an FX0A (R125). -/
structure State.Inv (s : State) : Prop where
  mem : s.mem.wf s.cfg.glyphTable
  depth : s.sp ≤ s.cfg.stackDepth
  returns : ∀ t ∈ s.stack, t.toNat ≤ 0x1000
  pc : s.pc.toNat ≤ 0x10FE
  paused : s.paused = true → s.atKeyWait

/-- The states the host can bring a machine of parameters `c` to: reset and one program load, then key writes and steps in any
order, and all of that again (`70_reset_and_hazards.md` R310, R315). -/
inductive Reachable (c : Config) : State → Prop where
  | boot (image : List Byte) : Reachable c ((State.resetWith c).load image)
  | keyWrite {s : State} (k : Nibble) (down : Bool) : Reachable c s → Reachable c (s.keyWrite k down)
  | step {s t : State} : Reachable c s → step s = .next t → Reachable c t
  | again {s : State} (image : List Byte) : Reachable c s → Reachable c (s.hostReset.load image)

/-- An instruction that gives `V[x]` a value fitting `result`, writes no flag, and moves `PC` past itself. -/
def WritesReg (i : Instr) (x : Nibble) (result : State → Byte → Prop) : Prop :=
  ∀ s, ∃ t, exec i s = .next t ∧ result s (t.reg x) ∧ (x ≠ 0xF#4 → t.reg 0xF#4 = s.reg 0xF#4) ∧ t.pc = s.nextPc

/-- An instruction that gives `V[x]` a value fitting `result` and then `VF` a value fitting `flag`, both from the values before
it, moves `PC` past itself, and changes nothing else; where `x` is 0xF the flag stays (`43_alu.md` R186). -/
def WritesRegAndFlag (i : Instr) (x : Nibble) (result flag : State → Byte → Prop) : Prop :=
  ∀ s, ∃ t, exec i s = .next t ∧ (x ≠ 0xF#4 → result s (t.reg x)) ∧ flag s (t.reg 0xF#4) ∧
    (∀ y, y ≠ x → y ≠ 0xF#4 → t.reg y = s.reg y) ∧ t.pc = s.nextPc ∧ s.sameExcept [.pc, .regs] t

/-- An instruction that sets `PC` to a value fitting `target` and writes no flag; at a target of 0xFFF or more there is no word
to fetch. -/
def SetsPc (i : Instr) (target : State → Word → Prop) : Prop :=
  ∀ s, ∃ t, exec i s = .next t ∧ target s t.pc ∧ t.reg 0xF#4 = s.reg 0xF#4 ∧ (0xFFF ≤ t.pc.toNat → t.fetch = none)

/-- An instruction that skips the next one when `cond` holds (`42_skips.md` R168) and writes no flag: `PC` is the advanced `PC`,
and 2 more when the skip is taken; that is 2 or 4 past the instruction, when not paused. -/
def Skips (i : Instr) (cond : State → Prop) : Prop :=
  ∀ s, ∃ t, exec i s = .next t ∧ (cond s → t.pc = s.nextPc + 2) ∧ (¬cond s → t.pc = s.nextPc) ∧
    (s.paused = false → (cond s → t.pc = s.pc + 4) ∧ (¬cond s → t.pc = s.pc + 2)) ∧ t.reg 0xF#4 = s.reg 0xF#4

/-- The sprite of DXYN covers the pixel (`px`, `py`): a set bit of one of its `n` rows falls on it, each coordinate wrapped
(`45_display.md` R232, R233; bit 7 is the left column, R235). -/
def State.spriteCovers (s : State) (x y n : Nibble) (px py : Nat) : Prop :=
  ∃ row col, row < n.toNat ∧ col < 8 ∧ (s.byte (s.i.toNat + row)).getLsbD (7 - col) = true ∧
    ((s.reg x).toNat + col) % 64 = px ∧ ((s.reg y).toNat + row) % 32 = py

end Sys2Proof.Machine
end

