-- ==== Sys2Proof/Certificates/Slice0/Obligations.lean ====
section
/-! DEFINITION. The statements for the provers. Each names the rule of spec/ it formalises, or, where it rests on a choice the
spec marks as its own ([decision], [derived], general knowledge) or on a choice of the model, says so and names it. -/

open Sys2Proof Sys2Proof.Machine

/-! ## Encoding -/

/-- Decoding the word of a well-formed instruction gives it back, with every operand at every value (`30_encoding.md` R91 to
R98; that N of classes 5 and 9 is kept and not examined is the spec's choice D7, log 9). -/
def Obligations.DecodeInvertsEncode : Prop := ∀ i : Instr, i.wf = true → decode (encode i) = i

/-- Every 16-bit word decodes to a well-formed instruction (derived in R101: decode is total), and no bit of it is lost: that the
syntax keeps the bits an instruction does not examine, N of classes 5 and 9 and those of the fallback rows, is the model's choice
(DESIGN CHOICE, log 9). -/
def Obligations.EncodeInvertsDecode : Prop := ∀ iw : Word, encode (decode iw) = iw ∧ (decode iw).wf = true

/-- Decode takes the row of the opcode table that R95 chooses: of the rows a word matches, the one whose mask has the most 1
bits (the rows of `opcodeRows` stand in that order). -/
def Obligations.DecodeChoosesTheOpcodeTableRow : Prop :=
  ∀ iw : Word, opcodeRows.find? (rowMatches iw) = some (decode iw).row

/-- A few words written out from the spec's encodings decode to the instructions they stand for (`95_test_vectors.md` T7). -/
def Obligations.WordsOfTheSpecDecode : Prop :=
  decode 0xD12A = .drw 0x1 0x2 0xA ∧ decode 0x8AB4 = .addReg 0xA 0xB ∧ decode 0xF165 = .ldRegs 0x1 ∧
  decode 0x00E0 = .cls ∧ decode 0x00EE = .ret ∧ decode 0x0E00 = .sys 0xE00 ∧ decode 0xE09E = .skp 0x0 ∧
  decode 0xE0A2 = .nopE 0x0 0xA2 ∧ decode 0xFF75 = .nopF 0xF 0x75 ∧ decode 0x5AB3 = .seReg 0xA 0xB 0x3 ∧
  decode 0xB123 = .jpV0 0x123

/-- The fields of a word are its digits (R92), and where they stand in the two bytes of memory. -/
def Obligations.FieldsAreTheDigitsOfTheWord : Prop :=
  (∀ iw : Word, (fieldClass iw).toNat = iw.toNat / 4096 ∧ (fieldX iw).toNat = iw.toNat / 256 % 16 ∧
    (fieldY iw).toNat = iw.toNat / 16 % 16 ∧ (fieldN iw).toNat = iw.toNat % 16 ∧
    (fieldNN iw).toNat = iw.toNat % 256 ∧ (fieldNNN iw).toNat = iw.toNat % 4096) ∧
  (∀ iw : Word, fieldNNN iw = fieldX iw ++ fieldY iw ++ fieldN iw) ∧
  ∀ hi lo : Byte, hi = fieldClass (wordOfBytes hi lo) ++ fieldX (wordOfBytes hi lo) ∧
    lo = fieldY (wordOfBytes hi lo) ++ fieldN (wordOfBytes hi lo) ∧ lo = fieldNN (wordOfBytes hi lo)

/-! ## The step -/

/-- Fetch is big-endian at any `PC` up to 0xFFE, odd or even (`20_memory.md` R60; `40_step_cycle.md` R121): the byte at the lower
address holds the class and X, the byte at the higher address Y and N, which are NN. -/
def Obligations.FetchIsBigEndian : Prop :=
  ∀ s : State, s.pc.toNat ≤ 0xFFE → ∃ iw, s.fetch = some iw ∧
    iw.toNat = (s.byte s.pc.toNat).toNat * 256 + (s.byte (s.pc.toNat + 1)).toNat ∧
    fieldClass iw ++ fieldX iw = s.byte s.pc.toNat ∧ fieldY iw ++ fieldN iw = s.byte (s.pc.toNat + 1) ∧
    fieldNN iw = s.byte (s.pc.toNat + 1)

/-- A fetch with `PC + 1 > 4095` raises and nothing else happens (R122). What a raise leaves is the spec's choice D2 (log 1). -/
def Obligations.FetchPastTheStoreRaises : Prop :=
  ∀ s : State, s.fault = .none → 0xFFF ≤ s.pc.toNat → step s = .next { s with fault := .fetchOutOfBounds }

/-- A step runs the instruction the bytes at `PC` decode to, and then the timers decay unless it raised (R120). That `exec`
starts from the state before the fetch advance and makes it itself is the model's choice (log 11). -/
def Obligations.StepRunsTheDecodedInstruction : Prop :=
  ∀ (s : State) (i : Instr), s.fault = .none → s.pc.toNat ≤ 0xFFE → i.wf = true →
    decodeBytes [s.byte s.pc.toNat, s.byte (s.pc.toNat + 1)] = .ok (i, []) →
    ∀ t, exec i s = .next t →
      (t.fault = .none → ∃ u, step s = .next u ∧ t.sameExcept [.dt, .st] u ∧ u.dt.toNat = t.dt.toNat - 1 ∧
        u.st.toNat = t.st.toNat - 1) ∧
      (t.fault ≠ .none → step s = .next t)

/-- Every step from every state gives a next state: no instruction is refused and none stops the model (R101, R281: no illegal
instruction; a fault is a state, the spec's choice D2, log 1). -/
def Obligations.EveryStepGivesANextState : Prop := ∀ s : State, ∃ t, step s = .next t

/-- While `FAULT` is set, steps change nothing, however many (R129, the spec's choice D2). -/
def Obligations.FaultedMachineIsStuck : Prop :=
  ∀ (s : State) (k : Nat), s.fault ≠ .none → Host.Core.run Sys2Proof.core k s = .next s

/-- Every step that does not raise decays both timers by one, not below zero, after what the instruction wrote to them (R127),
whatever the instruction: no-ops, skips and a waiting FX0A too. -/
def Obligations.TimersDecayOncePerInstruction : Prop :=
  ∀ (s t : State) (iw : Word), s.fault = .none → s.fetch = some iw → step s = .next t → t.fault = .none →
    (∀ x, decode iw = .ldDtVx x → t.dt.toNat = (s.reg x).toNat - 1) ∧
    ((∀ x, decode iw ≠ .ldDtVx x) → t.dt.toNat = s.dt.toNat - 1) ∧
    (∀ x, decode iw = .ldStVx x → t.st.toNat = (s.reg x).toNat - 1) ∧
    ((∀ x, decode iw ≠ .ldStVx x) → t.st.toNat = s.st.toNat - 1)

/-- The delay timer counts executed instructions: after `k` of them, none an FX15, it is lower by `k`, not below zero (derived
in R128; `95_test_vectors.md` S7). -/
def Obligations.DelayTimerCountsInstructions : Prop :=
  ∀ (run : Nat → State) (k : Nat),
    (∀ j < k, (run j).fault = .none ∧ step (run j) = .next (run (j + 1)) ∧ (run (j + 1)).fault = .none ∧
      ∀ iw x, (run j).fetch = some iw → decode iw ≠ .ldDtVx x) →
    (run k).dt.toNat = (run 0).dt.toNat - k

/-! ## Control flow -/

/-- SYS, NOP8, NOPE and NOPF complete and change nothing but the fetch advance of `PC` (`41_control_flow.md` R140,
`40_step_cycle.md` R126; that the rest is unchanged is the frame rule, the spec's choice D21). -/
def Obligations.NoOpsOnlyAdvance : Prop :=
  ∀ s : State,
    (∀ nnn, ∃ t, exec (.sys nnn) s = .next t ∧ t.pc = s.nextPc ∧ s.sameExcept [.pc] t) ∧
    (∀ x y n, ∃ t, exec (.nop8 x y n) s = .next t ∧ t.pc = s.nextPc ∧ s.sameExcept [.pc] t) ∧
    (∀ x nn, ∃ t, exec (.nopE x nn) s = .next t ∧ t.pc = s.nextPc ∧ s.sameExcept [.pc] t) ∧
    ∀ x nn, ∃ t, exec (.nopF x nn) s = .next t ∧ t.pc = s.nextPc ∧ s.sameExcept [.pc] t

/-- A step on a word of no recognised pattern in class 0, 8, E or F advances `PC` by 2 (when not paused), decays the timers and
changes nothing else (`30_encoding.md` R97, R98; R126; R140; R141). -/
def Obligations.UnrecognisedWordsAreNoOps : Prop :=
  ∀ (s : State) (iw : Word), s.fault = .none → s.fetch = some iw →
    (fieldClass iw = 0x0 ∧ iw ≠ 0x00E0 ∧ iw ≠ 0x00EE) ∨
    (fieldClass iw = 0x8 ∧ fieldN iw ∈ ([0x8, 0x9, 0xA, 0xB, 0xC, 0xD, 0xF] : List Nibble)) ∨
    (fieldClass iw = 0xE ∧ fieldNN iw ≠ 0x9E ∧ fieldNN iw ≠ 0xA1) ∨
    (fieldClass iw = 0xF ∧ fieldNN iw ∉ ([0x07, 0x0A, 0x15, 0x18, 0x1E, 0x29, 0x33, 0x55, 0x65] : List Byte)) →
    ∃ t, step s = .next t ∧ (s.paused = false → t.pc = s.pc + 2) ∧ (s.paused = true → t.pc = s.pc) ∧
      t.dt.toNat = s.dt.toNat - 1 ∧ t.st.toNat = s.st.toNat - 1 ∧ s.sameExcept [.pc, .dt, .st] t

/-- 1NNN sets `PC` to NNN, for every NNN, and writes no flag; a target of 0xFFF leaves no word to fetch (`41_control_flow.md`
R144). -/
def Obligations.JumpGoesToItsAddress : Prop :=
  ∀ nnn, decode (encodeNNN 0x1 nnn) = .jp nnn ∧ SetsPc (.jp nnn) fun _ p => p.toNat = nnn.toNat

/-- BNNN sets `PC` to `V[0] + NNN`, the full sum, and writes no flag; a target of 0xFFF or more leaves no word to fetch
(`41_control_flow.md` R148). -/
def Obligations.JumpWithOffsetAddsV0 : Prop :=
  ∀ nnn, decode (encodeNNN 0xB nnn) = .jpV0 nnn ∧
    SetsPc (.jpV0 nnn) fun s p => p.toNat = (s.reg 0x0#4).toNat + nnn.toNat

/-- 2NNN pushes the advanced `PC` and jumps; with `SP = STACK_DEPTH` it raises StackOverflow (`41_control_flow.md` R146). The
raise on a full stack is the spec's choice D4. -/
def Obligations.CallPushesTheReturnAddress : Prop :=
  ∀ (nnn : Addr12) (s : State),
    (s.sp ≠ s.cfg.stackDepth → ∃ t, exec (.call nnn) s = .next t ∧ t.stack = s.stack ++ [s.nextPc] ∧
      t.pc.toNat = nnn.toNat ∧ s.sameExcept [.pc, .stack] t) ∧
    (s.sp = s.cfg.stackDepth → exec (.call nnn) s = .next { s with fault := .stackOverflow })

/-- 00EE pops the most recent entry, whole, into `PC`; on an empty stack it raises StackUnderflow (`41_control_flow.md` R142).
What a raise leaves is the spec's choice D2. -/
def Obligations.ReturnPopsIntoPc : Prop :=
  ∀ s : State,
    (∀ older top, s.stack = older ++ [top] → ∃ t, exec .ret s = .next t ∧ t.pc = top ∧ t.stack = older ∧
      s.sameExcept [.pc, .stack] t) ∧
    (s.sp = 0 → exec .ret s = .next { s with fault := .stackUnderflow })

/-- A return right after a call comes back to the instruction after the call, with the stack as it was (R146, R142). -/
def Obligations.ReturnComesBackAfterCall : Prop :=
  ∀ (nnn : Addr12) (s : State), s.sp ≠ s.cfg.stackDepth →
    ∃ t u, exec (.call nnn) s = .next t ∧ exec .ret t = .next u ∧ u.pc = s.nextPc ∧ s.sameExcept [.pc] u

/-! ## Skips -/

/-- 3XNN skips when `V[X] = NN`, 4XNN when they differ, and they write no flag: `PC` ends 4 past the instruction when the skip is
taken, 2 past it when not (`42_skips.md` R160, R162). -/
def Obligations.ImmediateSkipsCompareWithNN : Prop :=
  ∀ (x : Nibble) (nn : Byte),
    (decode (encodeXNN 0x3 x nn) = .seImm x nn ∧ Skips (.seImm x nn) fun s => (s.reg x).toNat = nn.toNat) ∧
    (decode (encodeXNN 0x4 x nn) = .sneImm x nn ∧ Skips (.sneImm x nn) fun s => (s.reg x).toNat ≠ nn.toNat)

/-- 5XYN skips when `V[X] = V[Y]`, 9XYN when they differ, for every N, and they write no flag (`42_skips.md` R164, R166). That N
is not examined is the spec's choice D7 (log 9). -/
def Obligations.RegisterSkipsCompareTwoRegisters : Prop :=
  ∀ x y n : Nibble,
    (decode (encodeXYN 0x5 x y n) = .seReg x y n ∧ Skips (.seReg x y n) fun s => (s.reg x).toNat = (s.reg y).toNat) ∧
    (decode (encodeXYN 0x9 x y n) = .sneReg x y n ∧ Skips (.sneReg x y n) fun s => (s.reg x).toNat ≠ (s.reg y).toNat)

/-! ## Register loads, arithmetic, logic, shifts, random -/

/-- 6XNN loads NN and 8XY0 copies `V[Y]` into `V[X]`, and they write no flag (`43_alu.md` R180, R182). -/
def Obligations.LoadsCopyTheirSource : Prop :=
  (∀ x nn, decode (encodeXNN 0x6 x nn) = .ldImm x nn ∧ WritesReg (.ldImm x nn) x fun _ r => r = nn) ∧
  ∀ x y, decode (encodeXYN 0x8 x y 0x0) = .ldReg x y ∧ WritesReg (.ldReg x y) x fun s r => r = s.reg y

/-- 7XNN adds modulo 256 and writes no flag: `VF` is unchanged unless it is the destination (`43_alu.md` R181). -/
def Obligations.AddImmediateWrapsWithoutFlag : Prop :=
  ∀ x nn, decode (encodeXNN 0x7 x nn) = .addImm x nn ∧
    WritesReg (.addImm x nn) x fun s r => r.toNat = ((s.reg x).toNat + nn.toNat) % 256

/-- 8XY1, 8XY2 and 8XY3 work bit by bit and leave `VF` alone unless it is the destination (`43_alu.md` R183, R184, R185). -/
def Obligations.LogicIsBitwiseAndLeavesVF : Prop :=
  ∀ x y : Nibble,
    (decode (encodeXYN 0x8 x y 0x1) = .or x y ∧
      WritesReg (.or x y) x fun s r => ∀ k, r.getLsbD k = ((s.reg x).getLsbD k || (s.reg y).getLsbD k)) ∧
    (decode (encodeXYN 0x8 x y 0x2) = .and x y ∧
      WritesReg (.and x y) x fun s r => ∀ k, r.getLsbD k = ((s.reg x).getLsbD k && (s.reg y).getLsbD k)) ∧
    (decode (encodeXYN 0x8 x y 0x3) = .xor x y ∧
      WritesReg (.xor x y) x fun s r => ∀ k, r.getLsbD k = ((s.reg x).getLsbD k ^^ (s.reg y).getLsbD k))

/-- 8XY4: the sum modulo 256, and `VF` 1 exactly when the unwrapped sum exceeds 255 (`43_alu.md` R187). That the flag stays when
X is 0xF, and that operands are read first, is the spec's choice D8 (log 10). -/
def Obligations.AddRegistersSetsCarry : Prop :=
  ∀ x y : Nibble, WritesRegAndFlag (.addReg x y) x
    (fun s r => r.toNat = ((s.reg x).toNat + (s.reg y).toNat) % 256)
    (fun s g => g.toNat = if (s.reg x).toNat + (s.reg y).toNat > 255 then 1 else 0)

/-- 8XY5 and 8XY7: the difference modulo 256, and `VF` 1 exactly when the minuend is STRICTLY greater (`43_alu.md` R188, R190).
That the flag stays when X is 0xF is the spec's choice D8 (log 10). -/
def Obligations.SubtractionsSetStrictNotBorrow : Prop :=
  ∀ x y : Nibble,
    (WritesRegAndFlag (.sub x y) x
      (fun s r => (r.toNat : Int) = ((s.reg x).toNat - (s.reg y).toNat : Int) % 256)
      (fun s g => g.toNat = if (s.reg x).toNat > (s.reg y).toNat then 1 else 0)) ∧
    (WritesRegAndFlag (.subn x y) x
      (fun s r => (r.toNat : Int) = ((s.reg y).toNat - (s.reg x).toNat : Int) % 256)
      (fun s g => g.toNat = if (s.reg y).toNat > (s.reg x).toNat then 1 else 0))

/-- 8XY6 shifts right by one, the bit shifted out to `VF`; the value shifted is `V[Y]` in legacy mode and `V[X]` in modern mode,
for both settings of the strap (`43_alu.md` R189, R195). The flag of legacy mode is the spec's choice D25, X = 0xF its D8. -/
def Obligations.ShiftRightHalvesItsSource : Prop :=
  ∀ x y : Nibble, WritesRegAndFlag (.shr x y) x
    (fun s r => r.toNat = (if s.cfg.legacyShiftSource = true then (s.reg y).toNat else (s.reg x).toNat) / 2)
    (fun s g => g.toNat = (if s.cfg.legacyShiftSource = true then (s.reg y).toNat else (s.reg x).toNat) % 2)

/-- 8XYE shifts left by one modulo 256, for both settings of the shift strap, and writes the flag of the `SHL_FLAG` mode, for all
three modes (`43_alu.md` R191, R195, R197; the modes are the spec's choice D12, X = 0xF its D8). -/
def Obligations.ShiftLeftDoublesItsSource : Prop :=
  ∀ x y : Nibble, WritesRegAndFlag (.shl x y) x
    (fun s r => r.toNat = (if s.cfg.legacyShiftSource = true then (s.reg y).toNat else (s.reg x).toNat) * 2 % 256)
    (fun s g => ∀ v, v = (if s.cfg.legacyShiftSource = true then (s.reg y).toNat else (s.reg x).toNat) →
      (s.cfg.shlFlag = .high8 → g.toNat = if v ≥ 128 then 8 else 0) ∧
      (s.cfg.shlFlag = .bit3 → g.toNat = if v / 8 % 2 = 1 then 8 else 0) ∧
      (s.cfg.shlFlag = .conv → g.toNat = v / 128))

/-- CXNN gives `V[X]` one drawn byte AND NN, whatever byte is drawn, draws once, and changes nothing else (`43_alu.md` R200). The
draw is the model's free value (log 6). -/
def Obligations.RandomByteIsMasked : Prop :=
  ∀ (x : Nibble) (nn : Byte) (s : State), ∃ t, exec (.rnd x nn) s = .next t ∧
    (∀ k, (t.reg x).getLsbD k = ((Config.rand8 s.draws).getLsbD k && nn.getLsbD k)) ∧
    (∀ y, y ≠ x → t.reg y = s.reg y) ∧ t.draws = s.draws + 1 ∧ t.pc = s.nextPc ∧ s.sameExcept [.pc, .regs, .draws] t

/-! ## The index register and memory -/

/-- ANNN sets `I` to NNN and writes no flag (`44_index_memory.md` R210). -/
def Obligations.LoadIndexTakesNNN : Prop :=
  ∀ nnn, decode (encodeNNN 0xA nnn) = .ldI nnn ∧ ∀ s, ∃ t, exec (.ldI nnn) s = .next t ∧ t.i.toNat = nnn.toNat ∧
    t.pc = s.nextPc ∧ t.reg 0xF#4 = s.reg 0xF#4

/-- FX1E adds `V[X]` to `I` modulo 65536 and FX29 sets `I` to `V[X] * 5 + 0x50`, with no flag and no access (`44_index_memory.md`
R212, R214). The modulus and the use of the whole byte are the spec's choice D15 (log 15). -/
def Obligations.IndexArithmetic : Prop :=
  ∀ (x : Nibble) (s : State),
    (∃ t, exec (.addI x) s = .next t ∧ t.i.toNat = (s.i.toNat + (s.reg x).toNat) % 65536 ∧ t.pc = s.nextPc ∧
      s.sameExcept [.pc, .i] t) ∧
    (∃ t, exec (.ldF x) s = .next t ∧ t.i.toNat = (s.reg x).toNat * 5 + 0x50 ∧ t.pc = s.nextPc ∧ s.sameExcept [.pc, .i] t)

/-- FX33 stores the three decimal digits of `V[X]` at `I`, `I + 1`, `I + 2`, no other byte changes, and the digits give the value
back; with `I + 2 > 4095` it raises and writes nothing (`44_index_memory.md` R216; the raise is the spec's choice D2). -/
def Obligations.BcdStoresThreeDigits : Prop :=
  ∀ (x : Nibble) (s : State),
    (s.i.toNat + 2 ≤ 4095 → ∃ t, exec (.ldB x) s = .next t ∧
      (t.byte s.i.toNat).toNat = (s.reg x).toNat / 100 ∧
      (t.byte (s.i.toNat + 1)).toNat = (s.reg x).toNat / 10 % 10 ∧
      (t.byte (s.i.toNat + 2)).toNat = (s.reg x).toNat % 10 ∧
      (t.byte s.i.toNat).toNat * 100 + (t.byte (s.i.toNat + 1)).toNat * 10 +
        (t.byte (s.i.toNat + 2)).toNat = (s.reg x).toNat ∧
      (∀ a, a < s.i.toNat ∨ s.i.toNat + 2 < a → t.byte a = s.byte a) ∧
      t.pc = s.nextPc ∧ s.sameExcept [.pc, .mem] t) ∧
    (4095 < s.i.toNat + 2 → exec (.ldB x) s = .next { s with fault := .memOutOfBounds })

/-- FX55 stores `V[k]` at `I + k` for `k` from 0 to X, no other byte changes, `I` and the registers stay; with `I + X > 4095` it
raises and writes nothing (`44_index_memory.md` R222; the raise is the spec's choice D2, `I` unchanged its D16). -/
def Obligations.StoreRegistersWritesTheBlock : Prop :=
  ∀ (x : Nibble) (s : State),
    (s.i.toNat + x.toNat ≤ 4095 → ∃ t, exec (.stRegs x) s = .next t ∧
      (∀ k : Nibble, k.toNat ≤ x.toNat → t.byte (s.i.toNat + k.toNat) = s.reg k) ∧
      (∀ a, a < s.i.toNat ∨ s.i.toNat + x.toNat < a → t.byte a = s.byte a) ∧
      t.pc = s.nextPc ∧ s.sameExcept [.pc, .mem] t) ∧
    (4095 < s.i.toNat + x.toNat → exec (.stRegs x) s = .next { s with fault := .memOutOfBounds })

/-- FX65 loads `V[k]` from `I + k` for `k` from 0 to X, the registers above X and `I` stay; with `I + X > 4095` it raises and
writes nothing (`44_index_memory.md` R224; the raise is the spec's choice D2, `I` unchanged its D16). -/
def Obligations.LoadRegistersReadsTheBlock : Prop :=
  ∀ (x : Nibble) (s : State),
    (s.i.toNat + x.toNat ≤ 4095 → ∃ t, exec (.ldRegs x) s = .next t ∧
      (∀ k : Nibble, k.toNat ≤ x.toNat → t.reg k = s.byte (s.i.toNat + k.toNat)) ∧
      (∀ k : Nibble, x.toNat < k.toNat → t.reg k = s.reg k) ∧
      t.pc = s.nextPc ∧ s.sameExcept [.pc, .regs] t) ∧
    (4095 < s.i.toNat + x.toNat → exec (.ldRegs x) s = .next { s with fault := .memOutOfBounds })

/-- What FX55 stored, a later FX65 with the same X, `I` and memory bytes loads back, whatever else changed in between (R222,
R224). -/
def Obligations.LoadAfterStoreGivesTheRegistersBack : Prop :=
  ∀ (x : Nibble) (s t u : State), s.i.toNat + x.toNat ≤ 4095 → exec (.stRegs x) s = .next t →
    (∀ a, u.byte a = t.byte a) → u.i = t.i →
    ∃ w, exec (.ldRegs x) u = .next w ∧ ∀ k : Nibble, k.toNat ≤ x.toNat → w.reg k = s.reg k

/-- A store over the next instruction is what the next fetch reads (derived in `20_memory.md` R76): after an FX33 or an FX55 the
high byte of the next word is the byte stored at `PC`, if one was, else the byte there before, and the low byte the same at
`PC + 1`, wherever the stored block begins and ends, over the whole word, half of it or none of it. -/
def Obligations.StoresReachTheNextFetch : Prop :=
  ∀ (x : Nibble) (s t : State), t.pc.toNat ≤ 0xFFE →
    (s.i.toNat + 2 ≤ 4095 → exec (.ldB x) s = .next t → ∃ iw, t.fetch = some iw ∧
      (t.pc.toNat = s.i.toNat → iw.toNat / 256 = (s.reg x).toNat / 100) ∧
      (t.pc.toNat = s.i.toNat + 1 → iw.toNat / 256 = (s.reg x).toNat / 10 % 10) ∧
      (t.pc.toNat = s.i.toNat + 2 → iw.toNat / 256 = (s.reg x).toNat % 10) ∧
      (t.pc.toNat < s.i.toNat ∨ s.i.toNat + 2 < t.pc.toNat → iw.toNat / 256 = (s.byte t.pc.toNat).toNat) ∧
      (t.pc.toNat + 1 = s.i.toNat → iw.toNat % 256 = (s.reg x).toNat / 100) ∧
      (t.pc.toNat + 1 = s.i.toNat + 1 → iw.toNat % 256 = (s.reg x).toNat / 10 % 10) ∧
      (t.pc.toNat + 1 = s.i.toNat + 2 → iw.toNat % 256 = (s.reg x).toNat % 10) ∧
      (t.pc.toNat + 1 < s.i.toNat ∨ s.i.toNat + 2 < t.pc.toNat + 1 →
        iw.toNat % 256 = (s.byte (t.pc.toNat + 1)).toNat)) ∧
    (s.i.toNat + x.toNat ≤ 4095 → exec (.stRegs x) s = .next t → ∃ iw, t.fetch = some iw ∧
      (∀ k : Nibble, k.toNat ≤ x.toNat → t.pc.toNat = s.i.toNat + k.toNat → iw.toNat / 256 = (s.reg k).toNat) ∧
      (t.pc.toNat < s.i.toNat ∨ s.i.toNat + x.toNat < t.pc.toNat → iw.toNat / 256 = (s.byte t.pc.toNat).toNat) ∧
      (∀ k : Nibble, k.toNat ≤ x.toNat → t.pc.toNat + 1 = s.i.toNat + k.toNat → iw.toNat % 256 = (s.reg k).toNat) ∧
      (t.pc.toNat + 1 < s.i.toNat ∨ s.i.toNat + x.toNat < t.pc.toNat + 1 →
        iw.toNat % 256 = (s.byte (t.pc.toNat + 1)).toNat))

/-- Memories in canonical form that read the same at every address, over the same glyph table, are the same data (the model's
representation, DESIGN CHOICE, log 4). -/
def Obligations.EqualBytesMeanEqualMemory : Prop :=
  ∀ (g : GlyphTable) (m m' : Memory), m.wf g → m'.wf g → (∀ a, m.byte g a = m'.byte g a) → m = m'

/-! ## Display -/

/-- 00E0 clears all 2048 pixels and leaves `VF` unchanged (`45_display.md` R230). -/
def Obligations.ClearTurnsEveryPixelOff : Prop :=
  decode 0x00E0 = .cls ∧ (∀ iw, decode iw = .cls → iw = 0x00E0) ∧ ∀ s, ∃ t, exec .cls s = .next t ∧
    (∀ px py, fbPixel t.fb px py = false) ∧ t.pc = s.nextPc ∧ t.reg 0xF#4 = s.reg 0xF#4

/-- DXYN inverts exactly the pixels its sprite covers, wrapped round both edges, and leaves in `VF` 1 exactly when one of them was
lit, else 0; with N = 0 it draws nothing, whatever `I` holds; with a row above 4095 it raises and changes nothing
(`45_display.md` R232, R233, R236, R237). Bit 7 as the left column is the spec's choice D10, the coordinates read before `VF` its
D9, the raise its D2 (log 1, log 10, log 22). -/
def Obligations.DrawInvertsTheSpritesPixels : Prop :=
  ∀ (x y n : Nibble) (s : State),
    (n.toNat = 0 ∨ s.i.toNat + n.toNat - 1 ≤ 4095 → ∃ t, exec (.drw x y n) s = .next t ∧
      (∀ px py, px < 64 → py < 32 →
        (s.spriteCovers x y n px py → fbPixel t.fb px py = !fbPixel s.fb px py) ∧
        (¬s.spriteCovers x y n px py → fbPixel t.fb px py = fbPixel s.fb px py)) ∧
      ((∃ px py, px < 64 ∧ py < 32 ∧ s.spriteCovers x y n px py ∧ fbPixel s.fb px py = true) → t.reg 0xF#4 = 1) ∧
      (¬(∃ px py, px < 64 ∧ py < 32 ∧ s.spriteCovers x y n px py ∧ fbPixel s.fb px py = true) → t.reg 0xF#4 = 0) ∧
      (∀ z, z ≠ 0xF#4 → t.reg z = s.reg z) ∧ t.pc = s.nextPc ∧ s.sameExcept [.pc, .regs, .fb] t) ∧
    (n.toNat ≠ 0 ∧ 4095 < s.i.toNat + n.toNat - 1 → exec (.drw x y n) s = .next { s with fault := .memOutOfBounds })

/-- Drawing the same sprite twice at the same place gives the frame buffer back, and the second `VF` is 1 exactly when the first
draw left one of the sprite's pixels lit (derived in `45_display.md` R238). -/
def Obligations.DrawingTwiceRestoresTheFrameBuffer : Prop :=
  ∀ (x y n : Nibble) (s t u : State), s.fault = .none → exec (.drw x y n) s = .next t → t.fault = .none →
    t.reg x = s.reg x → t.reg y = s.reg y → exec (.drw x y n) t = .next u →
    u.fb = s.fb ∧
    (u.reg 0xF#4 = 1 ↔ ∃ px py, px < 64 ∧ py < 32 ∧ s.spriteCovers x y n px py ∧ fbPixel t.fb px py = true)

/-! ## Keypad and timers -/

/-- EX9E skips when key `V[X]` is down, EXA1 when it is up; nothing but `PC` changes; a key number above 15 raises
KeyIndexOutOfRange (`46_keypad_timers.md` R250, R252; the raise is the spec's choice D6, log 8). -/
def Obligations.KeySkipsReadOneKey : Prop :=
  ∀ (x : Nibble) (s : State),
    (∀ h : (s.reg x).toNat < 16,
      (∃ t, exec (.skp x) s = .next t ∧ (s.keys[(s.reg x).toNat] = true → t.pc = s.nextPc + 2) ∧
        (s.keys[(s.reg x).toNat] = false → t.pc = s.nextPc) ∧ s.sameExcept [.pc] t) ∧
      (∃ t, exec (.sknp x) s = .next t ∧ (s.keys[(s.reg x).toNat] = false → t.pc = s.nextPc + 2) ∧
        (s.keys[(s.reg x).toNat] = true → t.pc = s.nextPc) ∧ s.sameExcept [.pc] t)) ∧
    (15 < (s.reg x).toNat → exec (.skp x) s = .next { s with fault := .keyIndexOutOfRange } ∧
      exec (.sknp x) s = .next { s with fault := .keyIndexOutOfRange })

/-- FX0A with a key down gives `V[X]` the least key that is down, clears `PAUSED` and goes on after itself; with no key down it
sets `PAUSED` and stays on its own address (`46_keypad_timers.md` R256, the spec's choice D1, log 7). -/
def Obligations.KeyWaitTakesTheLeastKey : Prop :=
  ∀ (x : Nibble) (s : State),
    (∀ (k : Nat) (hk : k < 16), s.keys[k] = true → (∀ (j : Nat) (hj : j < k), s.keys[j] = false) →
      ∃ t, exec (.ldVxK x) s = .next t ∧ (t.reg x).toNat = k ∧ (∀ y, y ≠ x → t.reg y = s.reg y) ∧
        t.paused = false ∧ t.pc = s.pc + 2 ∧ s.sameExcept [.pc, .regs, .paused] t) ∧
    ((∀ (k : Nat) (hk : k < 16), s.keys[k] = false) →
      ∃ t, exec (.ldVxK x) s = .next t ∧ t.paused = true ∧ t.pc = s.pc ∧ s.sameExcept [.paused] t)

/-- While no key is down a machine at an FX0A repeats it step after step: `PC` stays, `PAUSED` is set, both timers decay once a
step, and nothing else changes (`46_keypad_timers.md` R257, R258; the spec's choice D1, log 7). -/
def Obligations.KeyWaitRepeatsUntilAKey : Prop :=
  ∀ (s : State) (k : Nat), s.fault = .none → s.atKeyWait → (∀ (j : Nat) (hj : j < 16), s.keys[j] = false) →
    ∃ t, Host.Core.run Sys2Proof.core (k + 1) s = .next t ∧ t.paused = true ∧ t.pc = s.pc ∧
      t.dt.toNat = s.dt.toNat - (k + 1) ∧ t.st.toNat = s.st.toNat - (k + 1) ∧ s.sameExcept [.paused, .dt, .st] t

/-- FX07 copies `DT`, as it is before the step's decay, to `V[X]`; FX15 and FX18 copy `V[X]` to `DT` and `ST`, and the same
step's decay follows the write, so a machine that has not faulted ends the step one lower, not below zero; they write no flag
(`46_keypad_timers.md` R259, R260, R262). -/
def Obligations.TimerMovesCopyTheRegister : Prop :=
  ∀ x : Nibble,
    (decode (encodeXNN 0xF x 0x07) = .ldVxDt x ∧ (WritesReg (.ldVxDt x) x fun s r => r = s.dt) ∧
      ∀ s t, exec (.ldVxDt x) s = .next t → s.fault = .none → t.finish.reg x = s.dt ∧ t.finish.dt.toNat = s.dt.toNat - 1) ∧
    (decode (encodeXNN 0xF x 0x15) = .ldDtVx x ∧ ∀ s, ∃ t, exec (.ldDtVx x) s = .next t ∧ t.dt = s.reg x ∧
      t.pc = s.nextPc ∧ t.reg 0xF#4 = s.reg 0xF#4 ∧ (s.fault = .none → t.finish.dt.toNat = (s.reg x).toNat - 1)) ∧
    (decode (encodeXNN 0xF x 0x18) = .ldStVx x ∧ ∀ s, ∃ t, exec (.ldStVx x) s = .next t ∧ t.st = s.reg x ∧
      t.pc = s.nextPc ∧ t.reg 0xF#4 = s.reg 0xF#4 ∧ (s.fault = .none → t.finish.st.toNat = (s.reg x).toNat - 1))

/-! ## Faults -/

/-- An instruction raises exactly when the table of `60_exceptions.md` R271 gives it cause, and a raise changes `FAULT` and nothing
else (R274, the spec's choice D2); otherwise it completes and leaves `FAULT` alone (R284). Causes and codes are the spec's choice
D3, D4, D6. -/
def Obligations.InstructionsRaiseExactlyByTheTable : Prop :=
  ∀ (i : Instr) (s : State),
    (i.cause s = .none → ∃ t, exec i s = .next t ∧ t.fault = s.fault) ∧
    (i.cause s ≠ .none → exec i s = .next { s with fault := i.cause s })

/-- A step of a machine that has not faulted sets `FAULT` exactly when its fetch is out of the store or its instruction has cause
to raise, and then everything but `FAULT` is as it was before the step: registers, `PC`, memory, timers (R274, R130, the spec's
choice D2). -/
def Obligations.FaultsArePrecise : Prop :=
  ∀ s t : State, s.fault = .none → step s = .next t →
    (t.fault ≠ .none ↔ s.fetch = none ∨ ∃ iw, s.fetch = some iw ∧ (decode iw).cause s ≠ .none) ∧
    (t.fault ≠ .none → t = { s with fault := t.fault })

/-! ## Whole-machine rules -/

/-- The frame rule (`00_scope.md` R11, the spec's choice D16, D21): an instruction that does not raise changes only the parts, the
registers and the bytes of memory its rule writes, and `PC`. The bytes are those from `I` upward that the instruction accesses: 3
for FX33, X + 1 for FX55. -/
def Obligations.FrameOfEveryInstruction : Prop :=
  ∀ (i : Instr) (s t : State), i.cause s = .none → exec i s = .next t →
    s.sameExcept i.writes t ∧ (∀ y, y ∉ i.destRegs → t.reg y = s.reg y) ∧
    ∀ a, a < s.ea ∨ s.ea + i.accessLength ≤ a → t.byte a = s.byte a

/-- No instruction other than ANNN, FX1E and FX29 writes `I` (R11, `10_state.md` R34; the frame rule is the spec's choice D21). -/
def Obligations.OnlyThreeInstructionsWriteI : Prop :=
  ∀ (i : Instr) (s t : State), exec i s = .next t → t.i ≠ s.i →
    (∃ nnn, i = .ldI nnn) ∨ (∃ x, i = .addI x) ∨ ∃ x, i = .ldF x

/-- The storage spaces are reached only by their own instructions (`10_state.md` R39; that the rest is unchanged is the frame rule,
the spec's choice D21). A step writes memory only by FX33 and FX55, and only the 16 bytes from `I` upward, the stack only by 2NNN
and 00EE, the frame buffer only by 00E0 and DXYN, and never the keys. A step of any other instruction does not read the stack or
the frame buffer, and one other than EX9E, EXA1 and FX0A does not read the keys: with other contents there it is the same step. -/
def Obligations.StorageSpacesReachedOnlyByTheirInstructions : Prop :=
  ∀ s t : State, step s = .next t →
    (t.mem ≠ s.mem → ∃ iw x, s.fetch = some iw ∧ (decode iw = .ldB x ∨ decode iw = .stRegs x)) ∧
    (∀ a, a < s.i.toNat ∨ s.i.toNat + 16 ≤ a → t.byte a = s.byte a) ∧
    (t.stack ≠ s.stack → ∃ iw, s.fetch = some iw ∧ (decode iw = .ret ∨ ∃ nnn, decode iw = .call nnn)) ∧
    (t.fb ≠ s.fb → ∃ iw, s.fetch = some iw ∧ (decode iw = .cls ∨ ∃ x y n, decode iw = .drw x y n)) ∧
    t.keys = s.keys ∧
    (∀ stack : List Word, (∀ iw, s.fetch = some iw → decode iw ≠ .ret ∧ ∀ nnn, decode iw ≠ .call nnn) →
      step { s with stack := stack } = .next { t with stack := stack }) ∧
    (∀ fb : FrameBuffer, (∀ iw, s.fetch = some iw → decode iw ≠ .cls ∧ ∀ x y n, decode iw ≠ .drw x y n) →
      step { s with fb := fb } = .next { t with fb := fb }) ∧
    ∀ keys : Vector Bool 16,
      (∀ iw x, s.fetch = some iw → decode iw ≠ .skp x ∧ decode iw ≠ .sknp x ∧ decode iw ≠ .ldVxK x) →
      step { s with keys := keys } = .next { t with keys := keys }

/-- No step writes the key latch or the configuration: the straps, the stack depth, the glyph table (`10_state.md` R20, R33, R42;
`40_step_cycle.md` R132). -/
def Obligations.StepsNeverTouchKeysOrParameters : Prop :=
  ∀ s t : State, step s = .next t → t.keys = s.keys ∧ t.cfg = s.cfg

/-- The sound timer and the draw count influence no other state: no instruction reads `ST` (`10_state.md` R31), and only CXNN reads
the random source (`40_step_cycle.md` R132). -/
def Obligations.SoundTimerAndRandomSourceAreUnread : Prop :=
  ∀ (i : Instr) (s t : State), exec i s = .next t →
    (∀ b : Byte, (∀ x, i ≠ .ldStVx x) → exec i { s with st := b } = .next { t with st := b }) ∧
    (∀ d : Nat, (∀ x nn, i ≠ .rnd x nn) → exec i { s with draws := d } = .next { t with draws := d })

/-- Only EX9E, EXA1 and FX0A read the keys (`10_state.md` R39; `40_step_cycle.md` R132), and only 8XY6 and 8XYE read the straps
(`10_state.md` R28), and of those not even they where X and Y name one register and the flag mode is kept (derived in
`70_reset_and_hazards.md` R326). -/
def Obligations.KeysAndStrapsAreReadOnlyByTheirInstructions : Prop :=
  ∀ (i : Instr) (s t : State), exec i s = .next t →
    (∀ keys : Vector Bool 16, (∀ x, i ≠ .skp x ∧ i ≠ .sknp x ∧ i ≠ .ldVxK x) →
      exec i { s with keys := keys } = .next { t with keys := keys }) ∧
    (∀ (b : Bool) (m : ShlFlag), (∀ x y, i ≠ .shr x y ∧ i ≠ .shl x y) →
      exec i { s with cfg := { s.cfg with legacyShiftSource := b, shlFlag := m } } =
        .next { t with cfg := { s.cfg with legacyShiftSource := b, shlFlag := m } }) ∧
    (∀ (b : Bool) (x : Nibble), i = .shr x x ∨ i = .shl x x →
      exec i { s with cfg := { s.cfg with legacyShiftSource := b } } =
        .next { t with cfg := { s.cfg with legacyShiftSource := b } })

/-! ## Reset, load, keys, invariants -/

/-- The state reset leaves (`10_state.md` R46): registers 0 and `PC` 0x200 as the source states; `I`, timers, `PAUSED`, frame
buffer, keys, stack, `FAULT` and the other memory 0 and the glyph table at 0x50 by the spec's choices D2, D11, D17; the strap
values and the depth by D4, D12 and the model's choice (log 2, log 3). -/
def Obligations.ResetLeavesTheStatedValues : Prop :=
  (∀ x, State.reset.reg x = 0) ∧ State.reset.pc = 0x200 ∧ State.reset.i = 0 ∧ State.reset.dt = 0 ∧ State.reset.st = 0 ∧
  State.reset.paused = false ∧ State.reset.sp = 0 ∧ (∀ px py, fbPixel State.reset.fb px py = false) ∧
  (∀ (k : Nat) (hk : k < 16), State.reset.keys[k] = false) ∧ State.reset.faultOut = 0 ∧
  (∀ k, k < 80 → State.reset.byte (0x50 + k) = defaultGlyphBytes.getD k 0) ∧
  (∀ a, a < 0x50 ∨ 0xA0 ≤ a → State.reset.byte a = 0) ∧
  State.reset.cfg.shlFlag = .high8 ∧ State.reset.cfg.stackDepth = 16 ∧ State.reset.cfg.legacyShiftSource = false

/-- A program load copies an image of up to 3584 bytes verbatim from 0x200 and changes nothing else (`70_reset_and_hazards.md`
R316); a longer image is refused whole (R317, the spec's choice D19, log 17). -/
def Obligations.ProgramLoadCopiesTheImage : Prop :=
  ∀ (s : State) (image : List Byte),
    (image.length ≤ 3584 →
      (∀ (k : Nat) (hk : k < image.length), (s.load image).byte (0x200 + k) = image[k]) ∧
      (∀ a, a < 0x200 ∨ 0x200 + image.length ≤ a → (s.load image).byte a = s.byte a) ∧
      s.sameExcept [.mem] (s.load image)) ∧
    (3584 < image.length → s.load image = s)

/-- A key write sets one key and changes nothing else (`60_exceptions.md` R295). -/
def Obligations.KeyWriteChangesOneKey : Prop :=
  ∀ (s : State) (k : Nibble) (down : Bool),
    (s.keyWrite k down).keyDown? (k.setWidth 8) = some down ∧
    (∀ j : Byte, j ≠ k.setWidth 8 → (s.keyWrite k down).keyDown? j = s.keyDown? j) ∧
    s.sameExcept [.keys] (s.keyWrite k down)

/-- The invariant holds right after reset: memory canonical, the stack empty and so within its depth, `PC` at 0x200, not paused
(`10_state.md` R46). `PC` is the source's; that `PAUSED` is 0 and memory at its reset contents is the spec's choice D17 (log 5), the
depth its D4 (log 3), and the canonical form of memory is the model's choice (DESIGN CHOICE, log 4). -/
def Obligations.ResetSatisfiesTheInvariant : Prop := State.reset.Inv

/-- Every step keeps the invariant, from every state that meets it: memory canonical, the stack within its depth and holding
addresses up to 0x1000, `PC` at most 0x10FE (derived in `10_state.md` R26), paused only at an FX0A (derived in
`40_step_cycle.md` R125). The canonical form of memory is the model's choice (DESIGN CHOICE, log 4). -/
def Obligations.StepKeepsTheInvariant : Prop := ∀ s t : State, s.Inv → step s = .next t → t.Inv

/-- Every state a host can bring the machine to meets the invariant, for every setting of the parameters, which stay as built: so
`PC` never wraps (R26), no return address is out of range, and a paused machine stands at an FX0A (R125). What a host may do, one
load after each reset, is held by `Reachable` (DESIGN CHOICE, log 21), and the canonical form of memory is the model's choice
(DESIGN CHOICE, log 4). -/
def Obligations.ReachableStatesSatisfyTheInvariant : Prop :=
  ∀ (c : Config) (s : State), Reachable c s → s.Inv ∧ s.cfg = c

/-- Reset between steps, of any machine in any state, a faulted one too, leaves every piece of state at its reset value, with the
machine's own glyph table in memory, and keeps the parameters (`10_state.md` R46, R33; `70_reset_and_hazards.md` R310;
`60_exceptions.md` R286). Registers 0 and `PC` 0x200 are the source's; a reset between steps and the other values are the spec's
choice D17 (log 5); that the draw count goes on is the model's (log 6). -/
def Obligations.HostResetRestoresTheResetState : Prop :=
  ∀ s : State,
    (∀ x, s.hostReset.reg x = 0) ∧ s.hostReset.pc = 0x200 ∧ s.hostReset.i = 0 ∧ s.hostReset.dt = 0 ∧ s.hostReset.st = 0 ∧
    s.hostReset.paused = false ∧ s.hostReset.sp = 0 ∧ (∀ px py, fbPixel s.hostReset.fb px py = false) ∧
    (∀ (k : Nat) (hk : k < 16), s.hostReset.keys[k] = false) ∧ s.hostReset.fault = .none ∧ s.hostReset.faultOut = 0 ∧
    (∀ (k : Nat) (hk : k < 80), s.hostReset.byte (0x50 + k) = s.cfg.glyphTable[k]) ∧
    (∀ a, a < 0x50 ∨ 0xA0 ≤ a → s.hostReset.byte a = 0) ∧ s.hostReset.cfg = s.cfg ∧ s.hostReset.draws = s.draws

/-- The code a step leaves in the `FAULT` latch, by the table of `60_exceptions.md` R271: 1 for a fetch past the store, 2 for an
access past it, 3 for a return on an empty stack, 4 for a call on a full one, 5 for a key number above 15, and 0 exactly when
there is no fault. The codes are the spec's choice D3, the causes of 4 and 5 its D4 and D6. -/
def Obligations.FaultLatchHoldsTheCodeOfTheCause : Prop :=
  ∀ s t : State, s.fault = .none → step s = .next t →
    (t.faultOut = 0 ↔ t.fault = .none) ∧
    (0xFFF ≤ s.pc.toNat → t.faultOut = 1) ∧
    ∀ iw, s.fetch = some iw →
      (∀ x y n, decode iw = .drw x y n → 1 ≤ n.toNat → 4095 < s.i.toNat + n.toNat - 1 → t.faultOut = 2) ∧
      (∀ x, decode iw = .ldB x → 4095 < s.i.toNat + 2 → t.faultOut = 2) ∧
      (∀ x, decode iw = .stRegs x ∨ decode iw = .ldRegs x → 4095 < s.i.toNat + x.toNat → t.faultOut = 2) ∧
      (decode iw = .ret → s.sp = 0 → t.faultOut = 3) ∧
      (∀ nnn, decode iw = .call nnn → s.sp = s.cfg.stackDepth → t.faultOut = 4) ∧
      (∀ x, decode iw = .skp x ∨ decode iw = .sknp x → 15 < (s.reg x).toNat → t.faultOut = 5) ∧
      ((decode iw).cause s = .none → t.faultOut = 0)
end

