-- ==== Sys2Proof/Laws/Encoding.lean ====
section
/-! SUPPORT. The fields of the three operand shapes (`30_encoding.md` R91, R92), and what a row's mask keeps of them (R95). -/

namespace Sys2Proof

section
variable (c x y n : Nibble) (nn : Byte) (nnn : Addr12) (iw : Word)

/-! ## The bits of the three shapes -/

theorem getLsbD_encodeNNN (i : Nat) :
    (encodeNNN c nnn).getLsbD i = if i < 12 then nnn.getLsbD i else c.getLsbD (i - 12) := by
  unfold encodeNNN
  exact BitVec.getLsbD_append.trans (by simp)

theorem getLsbD_encodeXNN (i : Nat) :
    (encodeXNN c x nn).getLsbD i =
      if i < 8 then nn.getLsbD i else if i - 8 < 4 then x.getLsbD (i - 8) else c.getLsbD (i - 8 - 4) := by
  unfold encodeXNN
  exact (BitVec.getLsbD_append (x := c ++ x) (y := nn)).trans (by rw [BitVec.getLsbD_append])

theorem getLsbD_encodeXYN (i : Nat) :
    (encodeXYN c x y n).getLsbD i =
      if i < 4 then n.getLsbD i else if i - 4 < 4 then y.getLsbD (i - 4)
      else if i - 4 - 4 < 4 then x.getLsbD (i - 4 - 4) else c.getLsbD (i - 4 - 4 - 4) := by
  unfold encodeXYN
  exact (BitVec.getLsbD_append (x := c ++ x ++ y) (y := n)).trans (by rw [BitVec.getLsbD_append, BitVec.getLsbD_append])

theorem getLsbD_wordOfBytes (hi lo : Byte) (i : Nat) :
    (wordOfBytes hi lo).getLsbD i = if i < 8 then lo.getLsbD i else hi.getLsbD (i - 8) := by
  unfold wordOfBytes
  exact BitVec.getLsbD_append.trans (by simp)

/-! ## Fields of a shape -/


@[simp] theorem fieldClass_encodeNNN : fieldClass (encodeNNN c nnn) = c := by
  apply BitVec.eq_of_getLsbD_eq; intro i hi
  interval_cases i <;> (simp only [fieldClass, getLsbD_encodeNNN, BitVec.getLsbD_extractLsb']; simp)
@[simp] theorem fieldNNN_encodeNNN : fieldNNN (encodeNNN c nnn) = nnn := by
  apply BitVec.eq_of_getLsbD_eq; intro i hi
  interval_cases i <;> (simp only [fieldNNN, getLsbD_encodeNNN, BitVec.getLsbD_extractLsb']; simp)

@[simp] theorem fieldClass_encodeXNN : fieldClass (encodeXNN c x nn) = c := by
  apply BitVec.eq_of_getLsbD_eq; intro i hi
  interval_cases i <;> (simp only [fieldClass, getLsbD_encodeXNN, BitVec.getLsbD_extractLsb']; simp)
@[simp] theorem fieldX_encodeXNN : fieldX (encodeXNN c x nn) = x := by
  apply BitVec.eq_of_getLsbD_eq; intro i hi
  interval_cases i <;> (simp only [fieldX, getLsbD_encodeXNN, BitVec.getLsbD_extractLsb']; simp)
@[simp] theorem fieldNN_encodeXNN : fieldNN (encodeXNN c x nn) = nn := by
  apply BitVec.eq_of_getLsbD_eq; intro i hi
  interval_cases i <;> (simp only [fieldNN, getLsbD_encodeXNN, BitVec.getLsbD_extractLsb']; simp)

@[simp] theorem fieldClass_encodeXYN : fieldClass (encodeXYN c x y n) = c := by
  apply BitVec.eq_of_getLsbD_eq; intro i hi
  interval_cases i <;> (simp only [fieldClass, getLsbD_encodeXYN, BitVec.getLsbD_extractLsb']; simp)
@[simp] theorem fieldX_encodeXYN : fieldX (encodeXYN c x y n) = x := by
  apply BitVec.eq_of_getLsbD_eq; intro i hi
  interval_cases i <;> (simp only [fieldX, getLsbD_encodeXYN, BitVec.getLsbD_extractLsb']; simp)
@[simp] theorem fieldY_encodeXYN : fieldY (encodeXYN c x y n) = y := by
  apply BitVec.eq_of_getLsbD_eq; intro i hi
  interval_cases i <;> (simp only [fieldY, getLsbD_encodeXYN, BitVec.getLsbD_extractLsb']; simp)
@[simp] theorem fieldN_encodeXYN : fieldN (encodeXYN c x y n) = n := by
  apply BitVec.eq_of_getLsbD_eq; intro i hi
  interval_cases i <;> (simp only [fieldN, getLsbD_encodeXYN, BitVec.getLsbD_extractLsb']; simp)

/-- A word is the NNN shape of its own fields. -/
theorem encodeNNN_fields : encodeNNN (fieldClass iw) (fieldNNN iw) = iw := by
  apply BitVec.eq_of_getLsbD_eq; intro i hi
  interval_cases i <;> (simp only [fieldClass, fieldNNN, getLsbD_encodeNNN, BitVec.getLsbD_extractLsb']; simp)
/-- A word is the XNN shape of its own fields. -/
theorem encodeXNN_fields : encodeXNN (fieldClass iw) (fieldX iw) (fieldNN iw) = iw := by
  apply BitVec.eq_of_getLsbD_eq; intro i hi
  interval_cases i <;> (simp only [fieldClass, fieldX, fieldNN, getLsbD_encodeXNN, BitVec.getLsbD_extractLsb']; simp)
/-- A word is the XYN shape of its own fields. -/
theorem encodeXYN_fields : encodeXYN (fieldClass iw) (fieldX iw) (fieldY iw) (fieldN iw) = iw := by
  apply BitVec.eq_of_getLsbD_eq; intro i hi
  interval_cases i <;> (simp only [fieldClass, fieldX, fieldY, fieldN, getLsbD_encodeXYN, BitVec.getLsbD_extractLsb']; simp)

/-- What the mask 0xF000 keeps: the class. -/
theorem encodeNNN_and_F000 : encodeNNN c nnn &&& 0xF000#16 = encodeNNN c 0#12 := by
  apply BitVec.eq_of_getLsbD_eq; intro i hi
  interval_cases i <;> (simp only [getLsbD_encodeNNN, BitVec.getLsbD_and]; simp)
theorem encodeXNN_and_F000 : encodeXNN c x nn &&& 0xF000#16 = encodeNNN c 0#12 := by
  apply BitVec.eq_of_getLsbD_eq; intro i hi
  interval_cases i <;> (simp only [getLsbD_encodeNNN, getLsbD_encodeXNN, BitVec.getLsbD_and]; simp)
theorem encodeXYN_and_F000 : encodeXYN c x y n &&& 0xF000#16 = encodeNNN c 0#12 := by
  apply BitVec.eq_of_getLsbD_eq; intro i hi
  interval_cases i <;> (simp only [getLsbD_encodeNNN, getLsbD_encodeXYN, BitVec.getLsbD_and]; simp)
/-- What the mask 0xF0FF keeps: the class and NN. -/
theorem encodeXNN_and_F0FF : encodeXNN c x nn &&& 0xF0FF#16 = encodeXNN c 0#4 nn := by
  apply BitVec.eq_of_getLsbD_eq; intro i hi
  interval_cases i <;> (simp only [getLsbD_encodeXNN, BitVec.getLsbD_and]; simp)
/-- What the mask 0xF00F keeps: the class and N. -/
theorem encodeXYN_and_F00F : encodeXYN c x y n &&& 0xF00F#16 = encodeXYN c 0#4 0#4 n := by
  apply BitVec.eq_of_getLsbD_eq; intro i hi
  interval_cases i <;> (simp only [getLsbD_encodeXYN, BitVec.getLsbD_and]; simp)
end

/-- The word of two bytes has its class and X in the first, NN in the second (`20_memory.md` R60). -/
theorem wordOfBytes_toNat (hi lo : Byte) : (wordOfBytes hi lo).toNat = hi.toNat * 256 + lo.toNat := by
  have := lo.isLt
  simp only [wordOfBytes, BitVec.toNat_append]
  rw [← Nat.shiftLeft_add_eq_or_of_lt this, Nat.shiftLeft_eq]

/-- Splitting a word into its bytes and joining them gives it back. -/
theorem wordOfBytes_bytes (iw : Word) : wordOfBytes (iw.extractLsb' 8 8) (iw.extractLsb' 0 8) = iw := by
  apply BitVec.eq_of_getLsbD_eq; intro i hi
  interval_cases i <;> (simp only [getLsbD_wordOfBytes, BitVec.getLsbD_extractLsb']; simp)

/-- What a mask keeps of a word, in terms of its fields. -/
theorem and_mask_F000 (iw : Word) : iw &&& 0xF000#16 = encodeNNN (fieldClass iw) 0#12 := by
  conv_lhs => rw [← encodeNNN_fields iw]
  exact encodeNNN_and_F000 ..
theorem and_mask_F0FF (iw : Word) : iw &&& 0xF0FF#16 = encodeXNN (fieldClass iw) 0#4 (fieldNN iw) := by
  conv_lhs => rw [← encodeXNN_fields iw]
  exact encodeXNN_and_F0FF ..
theorem and_mask_F00F (iw : Word) : iw &&& 0xF00F#16 = encodeXYN (fieldClass iw) 0#4 0#4 (fieldN iw) := by
  conv_lhs => rw [← encodeXYN_fields iw]
  exact encodeXYN_and_F00F ..

/-- Whether a word matches a row, in terms of its fields: one lemma per mask of the table (R95). -/
theorem rowMatches_F000 (iw : Word) (c : Nibble) :
    rowMatches iw (0xF000#16, encodeNNN c 0#12) = (fieldClass iw == c) := by
  rw [Bool.eq_iff_iff]
  simp only [rowMatches, and_mask_F000, beq_iff_eq]
  exact ⟨fun h => by simpa using congrArg fieldClass h, fun h => by rw [h]⟩
theorem rowMatches_F0FF (iw : Word) (c : Nibble) (nn : Byte) :
    rowMatches iw (0xF0FF#16, encodeXNN c 0#4 nn) = (fieldClass iw == c && fieldNN iw == nn) := by
  rw [Bool.eq_iff_iff]
  simp only [rowMatches, and_mask_F0FF, beq_iff_eq, Bool.and_eq_true]
  exact ⟨fun h => ⟨by simpa using congrArg fieldClass h, by simpa using congrArg fieldNN h⟩,
    fun h => by rw [h.1, h.2]⟩
theorem rowMatches_F00F (iw : Word) (c n : Nibble) :
    rowMatches iw (0xF00F#16, encodeXYN c 0#4 0#4 n) = (fieldClass iw == c && fieldN iw == n) := by
  rw [Bool.eq_iff_iff]
  simp only [rowMatches, and_mask_F00F, beq_iff_eq, Bool.and_eq_true]
  exact ⟨fun h => ⟨by simpa using congrArg fieldClass h, by simpa using congrArg fieldN h⟩,
    fun h => by rw [h.1, h.2]⟩
theorem rowMatches_FFFF (iw : Word) (c : Nibble) (nnn : Addr12) :
    rowMatches iw (0xFFFF#16, encodeNNN c nnn) = (fieldClass iw == c && fieldNNN iw == nnn) := by
  rw [Bool.eq_iff_iff]
  have : iw &&& 0xFFFF#16 = iw := by simpa using BitVec.and_allOnes (x := iw)
  simp only [rowMatches, this, beq_iff_eq, Bool.and_eq_true]
  constructor
  · rintro rfl; simp
  · rintro ⟨h1, h2⟩; rw [← h1, ← h2, encodeNNN_fields]

end Sys2Proof
end

