-- ==== Sys2Proof/Laws/Memory.lean ====
section
/-! SUPPORT. What the memory operations do: a read after a write, the canonical form kept, the bounds checked. -/

namespace Sys2Proof.Machine

/-! ## Cells -/

theorem findCell_putCell (x a : Nat) (b : Byte) (cs : List Host.Cell) :
    findCell x (putCell a b cs) = if a = x then some b else findCell x cs := by
  induction cs with
  | nil => rfl
  | cons c cs ih =>
    unfold putCell
    split
    · rfl
    · split
      · rename_i h
        by_cases hx : a = x
        · simp [findCell, hx]
        · simp [findCell, hx, ← h]
      · rename_i h
        by_cases hx : c.1 = x
        · simp [findCell, hx, show ¬ a = x from fun e => h (by rw [hx, e])]
        · simp [findCell, hx, ih]

theorem findCell_filter_ne (x a : Nat) (cs : List Host.Cell) :
    findCell x (cs.filter fun c => c.1 ≠ a) = if a = x then none else findCell x cs := by
  induction cs with
  | nil => simp [findCell]
  | cons c cs ih =>
    by_cases hc : c.1 = a
    · rw [List.filter_cons_of_neg (by simpa using hc), ih]
      by_cases hx : a = x <;> simp [findCell, hc, hx]
    · rw [List.filter_cons_of_pos (by simpa using hc), findCell, ih, findCell]
      by_cases hcx : c.1 = x
      · simp [hcx, show ¬ a = x from fun e => hc (by rw [hcx, e])]
      · simp [hcx]

theorem mem_putCell {a : Nat} {b : Byte} {c : Host.Cell} {cs : List Host.Cell} (h : c ∈ putCell a b cs) :
    c = (a, b) ∨ c ∈ cs := by
  induction cs with
  | nil => simpa [putCell] using h
  | cons d ds ih =>
    unfold putCell at h
    split at h
    · simpa using h
    · split at h
      · rcases List.mem_cons.1 h with h | h
        · exact .inl h
        · exact .inr (List.mem_cons_of_mem d h)
      · rcases List.mem_cons.1 h with h | h
        · exact .inr (h ▸ List.mem_cons_self)
        · exact (ih h).imp id (List.mem_cons_of_mem d)

theorem pairwise_putCell {a : Nat} {b : Byte} {cs : List Host.Cell} (h : cs.Pairwise fun c d => c.1 < d.1) :
    (putCell a b cs).Pairwise fun c d => c.1 < d.1 := by
  induction cs with
  | nil => simp [putCell]
  | cons c cs ih =>
    obtain ⟨hc, hcs⟩ := List.pairwise_cons.1 h
    unfold putCell
    split
    · rename_i hlt
      refine List.pairwise_cons.2 ⟨fun d hd => ?_, h⟩
      rcases List.mem_cons.1 hd with rfl | hd
      · exact hlt
      · exact lt_trans hlt (hc d hd)
    · split
      · rename_i heq
        exact List.pairwise_cons.2 ⟨fun d hd => heq ▸ hc d hd, hcs⟩
      · rename_i hnlt hne
        refine List.pairwise_cons.2 ⟨fun d hd => ?_, ih hcs⟩
        rcases mem_putCell hd with rfl | hd
        · exact lt_of_le_of_ne (not_lt.1 hnlt) (Ne.symm hne)
        · exact hc d hd

/-! ## One byte -/

/-- A read after a write: the byte written, or the byte there before. -/
theorem Memory.byte_setByte (g : GlyphTable) (m : Memory) (a x : Nat) (b : Byte) :
    (m.setByte g a b).byte g x = if a = x ∧ a < memSize then b else m.byte g x := by
  unfold Memory.setByte
  split
  · rename_i h; simp [show ¬ a < memSize from not_lt.2 h]
  · rename_i h
    have ha : a < memSize := not_le.1 h
    split
    · rename_i hb
      unfold Memory.byte
      rw [findCell_filter_ne]
      by_cases hx : a = x
      · subst hx; simp [ha, hb]
      · simp [hx]
    · unfold Memory.byte
      rw [findCell_putCell]
      by_cases hx : a = x
      · subst hx; simp [ha]
      · simp [hx]

/-- A write keeps the canonical form. -/
theorem Memory.wf_setByte {g : GlyphTable} {m : Memory} (h : m.wf g) (a : Nat) (b : Byte) : (m.setByte g a b).wf g := by
  unfold Memory.setByte
  split
  · exact h
  · rename_i ha
    split
    · exact ⟨h.1.filter _, fun c hc => h.2 c (List.mem_filter.1 hc).1⟩
    · rename_i hb
      refine ⟨pairwise_putCell h.1, fun c hc => ?_⟩
      rcases mem_putCell hc with rfl | hc
      · exact ⟨not_le.1 ha, hb⟩
      · exact h.2 c hc

/-! ## Several bytes -/

/-- A read after a write of several bytes. -/
theorem Memory.byte_setBytes (g : GlyphTable) (m : Memory) (a x : Nat) (bs : List Byte) :
    (m.setBytes g a bs).byte g x =
      if a ≤ x ∧ x < a + bs.length ∧ x < memSize then bs.getD (x - a) 0 else m.byte g x := by
  induction bs generalizing m a with
  | nil => simp only [Memory.setBytes, List.length_nil]; rw [if_neg (by omega)]
  | cons b bs ih =>
    simp only [Memory.setBytes, ih, Memory.byte_setByte, List.length_cons]
    by_cases hx : a = x
    · subst hx
      rw [if_neg (by omega)]
      by_cases hm : a < memSize
      · rw [if_pos ⟨rfl, hm⟩, if_pos (by omega)]; simp
      · rw [if_neg (by omega), if_neg (by omega)]
    · by_cases hin : a + 1 ≤ x ∧ x < a + 1 + bs.length ∧ x < memSize
      · rw [if_pos hin, if_pos (by omega), show x - a = (x - (a + 1)) + 1 by omega]
        simp
      · rw [if_neg hin, if_neg (by omega), if_neg (by omega)]

/-- A write of several bytes keeps the canonical form. -/
theorem Memory.wf_setBytes {g : GlyphTable} {m : Memory} (h : m.wf g) (a : Nat) (bs : List Byte) : (m.setBytes g a bs).wf g := by
  induction bs generalizing m a with
  | nil => exact h
  | cons b bs ih => exact ih (Memory.wf_setByte h a b) (a + 1)

/-! ## Bounded accesses -/

theorem inStore_eq_true {a n : Nat} : inStore a n = true ↔ n = 0 ∨ a + n ≤ memSize := by simp [inStore]

theorem inStore_eq_false {a n : Nat} : inStore a n = false ↔ n ≠ 0 ∧ memSize < a + n := by
  simp [inStore]

/-- Everything a bounded read can do. -/
theorem State.read?_eq_some {s : State} {a n : Nat} {bs : List Byte} :
    s.read? a n = some bs ↔ (n = 0 ∨ a + n ≤ memSize) ∧ bs = (List.range n).map fun k => s.byte (a + k) := by
  unfold State.read?
  rw [← inStore_eq_true]
  split <;> rename_i h <;> simp [h, eq_comm]

theorem State.read?_eq_none {s : State} {a n : Nat} : s.read? a n = none ↔ n ≠ 0 ∧ memSize < a + n := by
  unfold State.read?
  rw [← inStore_eq_false]
  split <;> simp_all

/-- Everything a bounded write can do. -/
theorem State.write?_eq_some {s t : State} {a : Nat} {bs : List Byte} :
    s.write? a bs = some t ↔ (bs.length = 0 ∨ a + bs.length ≤ memSize) ∧ t = s.writeBytes a bs := by
  unfold State.write?
  rw [← inStore_eq_true]
  split <;> rename_i h <;> simp [h, eq_comm]

theorem State.write?_eq_none {s : State} {a : Nat} {bs : List Byte} :
    s.write? a bs = none ↔ bs.length ≠ 0 ∧ memSize < a + bs.length := by
  unfold State.write?
  rw [← inStore_eq_false]
  split <;> simp_all

/-- A byte of memory depends on memory and the glyph table alone. -/
theorem State.byte_congr {s t : State} (hm : t.mem = s.mem) (hc : t.cfg = s.cfg) (a : Nat) : t.byte a = s.byte a := by
  simp [State.byte, hm, hc]

/-- A write to a machine's memory, read back byte by byte. -/
theorem State.byte_writeBytes (s : State) (a x : Nat) (bs : List Byte) :
    (s.writeBytes a bs).byte x =
      if a ≤ x ∧ x < a + bs.length ∧ x < memSize then bs.getD (x - a) 0 else s.byte x :=
  Memory.byte_setBytes ..

/-- A bounded write, read back byte by byte. -/
theorem State.byte_write? {s t : State} {a : Nat} {bs : List Byte} (h : s.write? a bs = some t) (x : Nat) :
    t.byte x = if a ≤ x ∧ x < a + bs.length then bs.getD (x - a) 0 else s.byte x := by
  obtain ⟨hin, rfl⟩ := State.write?_eq_some.1 h
  rw [State.byte_writeBytes]
  by_cases h : a ≤ x ∧ x < a + bs.length
  · rw [if_pos h, if_pos (by omega)]
  · rw [if_neg h, if_neg (by omega)]

/-- Every write to a machine's memory keeps the canonical form. -/
theorem State.wf_writeBytes {s : State} (h : s.mem.wf s.cfg.glyphTable) (a : Nat) (bs : List Byte) :
    (s.writeBytes a bs).mem.wf (s.writeBytes a bs).cfg.glyphTable := Memory.wf_setBytes h a bs

theorem State.wf_write? {s t : State} {a : Nat} {bs : List Byte} (h : s.mem.wf s.cfg.glyphTable)
    (hw : s.write? a bs = some t) : t.mem.wf t.cfg.glyphTable := by
  obtain ⟨-, rfl⟩ := State.write?_eq_some.1 hw
  exact State.wf_writeBytes h a bs

/-! ## The reset contents -/

/-- At reset `MEM[0x50 + k]` is byte `k` of the glyph table (`10_state.md` R45). -/
theorem resetByte_glyph (g : GlyphTable) {k : Nat} (hk : k < 80) : resetByte g (glyphBase + k) = g[k] := by
  simp [resetByte, hk]

/-- Outside the glyph table memory is 0 at reset (`10_state.md` R46). -/
theorem resetByte_other (g : GlyphTable) {a : Nat} (h : a < 0x50 ∨ 0xA0 ≤ a) : resetByte g a = 0 := by
  unfold resetByte
  split
  · rename_i hb
    rw [Vector.getElem?_eq_none (by simp [glyphBase] at hb ⊢; omega)]; rfl
  · rfl

end Sys2Proof.Machine
end

