-- ==== Sys2Proof/Laws/State.lean ====
section
/-! SUPPORT. What each update of the state does to each field: one lemma per field and update, so that no proof unfolds a
record update. -/

namespace Sys2Proof.Machine

variable (s : State)

@[simp] theorem State.setReg_v (x : Nibble) (b : Byte) : (s.setReg x b).v = s.v.set x.toNat b x.isLt := rfl
@[simp] theorem State.setReg_i (x : Nibble) (b : Byte) : (s.setReg x b).i = s.i := rfl
@[simp] theorem State.setReg_pc (x : Nibble) (b : Byte) : (s.setReg x b).pc = s.pc := rfl
@[simp] theorem State.setReg_dt (x : Nibble) (b : Byte) : (s.setReg x b).dt = s.dt := rfl
@[simp] theorem State.setReg_st (x : Nibble) (b : Byte) : (s.setReg x b).st = s.st := rfl
@[simp] theorem State.setReg_paused (x : Nibble) (b : Byte) : (s.setReg x b).paused = s.paused := rfl
@[simp] theorem State.setReg_mem (x : Nibble) (b : Byte) : (s.setReg x b).mem = s.mem := rfl
@[simp] theorem State.setReg_stack (x : Nibble) (b : Byte) : (s.setReg x b).stack = s.stack := rfl
@[simp] theorem State.setReg_fb (x : Nibble) (b : Byte) : (s.setReg x b).fb = s.fb := rfl
@[simp] theorem State.setReg_keys (x : Nibble) (b : Byte) : (s.setReg x b).keys = s.keys := rfl
@[simp] theorem State.setReg_fault (x : Nibble) (b : Byte) : (s.setReg x b).fault = s.fault := rfl
@[simp] theorem State.setReg_cfg (x : Nibble) (b : Byte) : (s.setReg x b).cfg = s.cfg := rfl
@[simp] theorem State.setReg_draws (x : Nibble) (b : Byte) : (s.setReg x b).draws = s.draws := rfl

@[simp] theorem State.setRegs_v (bs : List Byte) : (s.setRegs bs).v = Vector.ofFn fun k : Fin 16 => bs.getD k.val s.v[k] := rfl
@[simp] theorem State.setRegs_i (bs : List Byte) : (s.setRegs bs).i = s.i := by simp only [State.setRegs]
@[simp] theorem State.setRegs_pc (bs : List Byte) : (s.setRegs bs).pc = s.pc := by simp only [State.setRegs]
@[simp] theorem State.setRegs_dt (bs : List Byte) : (s.setRegs bs).dt = s.dt := by simp only [State.setRegs]
@[simp] theorem State.setRegs_st (bs : List Byte) : (s.setRegs bs).st = s.st := by simp only [State.setRegs]
@[simp] theorem State.setRegs_paused (bs : List Byte) : (s.setRegs bs).paused = s.paused := by simp only [State.setRegs]
@[simp] theorem State.setRegs_mem (bs : List Byte) : (s.setRegs bs).mem = s.mem := by simp only [State.setRegs]
@[simp] theorem State.setRegs_stack (bs : List Byte) : (s.setRegs bs).stack = s.stack := by simp only [State.setRegs]
@[simp] theorem State.setRegs_fb (bs : List Byte) : (s.setRegs bs).fb = s.fb := by simp only [State.setRegs]
@[simp] theorem State.setRegs_keys (bs : List Byte) : (s.setRegs bs).keys = s.keys := by simp only [State.setRegs]
@[simp] theorem State.setRegs_fault (bs : List Byte) : (s.setRegs bs).fault = s.fault := by simp only [State.setRegs]
@[simp] theorem State.setRegs_cfg (bs : List Byte) : (s.setRegs bs).cfg = s.cfg := by simp only [State.setRegs]
@[simp] theorem State.setRegs_draws (bs : List Byte) : (s.setRegs bs).draws = s.draws := by simp only [State.setRegs]

@[simp] theorem State.jump_v (t : Word) : (s.jump t).v = s.v := rfl
@[simp] theorem State.jump_i (t : Word) : (s.jump t).i = s.i := rfl
@[simp] theorem State.jump_pc (t : Word) : (s.jump t).pc = t := rfl
@[simp] theorem State.jump_dt (t : Word) : (s.jump t).dt = s.dt := rfl
@[simp] theorem State.jump_st (t : Word) : (s.jump t).st = s.st := rfl
@[simp] theorem State.jump_paused (t : Word) : (s.jump t).paused = s.paused := rfl
@[simp] theorem State.jump_mem (t : Word) : (s.jump t).mem = s.mem := rfl
@[simp] theorem State.jump_stack (t : Word) : (s.jump t).stack = s.stack := rfl
@[simp] theorem State.jump_fb (t : Word) : (s.jump t).fb = s.fb := rfl
@[simp] theorem State.jump_keys (t : Word) : (s.jump t).keys = s.keys := rfl
@[simp] theorem State.jump_fault (t : Word) : (s.jump t).fault = s.fault := rfl
@[simp] theorem State.jump_cfg (t : Word) : (s.jump t).cfg = s.cfg := rfl
@[simp] theorem State.jump_draws (t : Word) : (s.jump t).draws = s.draws := rfl

@[simp] theorem State.advance_v : (s.advance).v = s.v := rfl
@[simp] theorem State.advance_i : (s.advance).i = s.i := rfl
@[simp] theorem State.advance_pc : (s.advance).pc = s.nextPc := rfl
@[simp] theorem State.advance_dt : (s.advance).dt = s.dt := rfl
@[simp] theorem State.advance_st : (s.advance).st = s.st := rfl
@[simp] theorem State.advance_paused : (s.advance).paused = s.paused := rfl
@[simp] theorem State.advance_mem : (s.advance).mem = s.mem := rfl
@[simp] theorem State.advance_stack : (s.advance).stack = s.stack := rfl
@[simp] theorem State.advance_fb : (s.advance).fb = s.fb := rfl
@[simp] theorem State.advance_keys : (s.advance).keys = s.keys := rfl
@[simp] theorem State.advance_fault : (s.advance).fault = s.fault := rfl
@[simp] theorem State.advance_cfg : (s.advance).cfg = s.cfg := rfl
@[simp] theorem State.advance_draws : (s.advance).draws = s.draws := rfl

@[simp] theorem State.setI_v (w : Word) : (s.setI w).v = s.v := rfl
@[simp] theorem State.setI_i (w : Word) : (s.setI w).i = w := rfl
@[simp] theorem State.setI_pc (w : Word) : (s.setI w).pc = s.pc := rfl
@[simp] theorem State.setI_dt (w : Word) : (s.setI w).dt = s.dt := rfl
@[simp] theorem State.setI_st (w : Word) : (s.setI w).st = s.st := rfl
@[simp] theorem State.setI_paused (w : Word) : (s.setI w).paused = s.paused := rfl
@[simp] theorem State.setI_mem (w : Word) : (s.setI w).mem = s.mem := rfl
@[simp] theorem State.setI_stack (w : Word) : (s.setI w).stack = s.stack := rfl
@[simp] theorem State.setI_fb (w : Word) : (s.setI w).fb = s.fb := rfl
@[simp] theorem State.setI_keys (w : Word) : (s.setI w).keys = s.keys := rfl
@[simp] theorem State.setI_fault (w : Word) : (s.setI w).fault = s.fault := rfl
@[simp] theorem State.setI_cfg (w : Word) : (s.setI w).cfg = s.cfg := rfl
@[simp] theorem State.setI_draws (w : Word) : (s.setI w).draws = s.draws := rfl

@[simp] theorem State.setFb_v (fb : FrameBuffer) : (s.setFb fb).v = s.v := rfl
@[simp] theorem State.setFb_i (fb : FrameBuffer) : (s.setFb fb).i = s.i := rfl
@[simp] theorem State.setFb_pc (fb : FrameBuffer) : (s.setFb fb).pc = s.pc := rfl
@[simp] theorem State.setFb_dt (fb : FrameBuffer) : (s.setFb fb).dt = s.dt := rfl
@[simp] theorem State.setFb_st (fb : FrameBuffer) : (s.setFb fb).st = s.st := rfl
@[simp] theorem State.setFb_paused (fb : FrameBuffer) : (s.setFb fb).paused = s.paused := rfl
@[simp] theorem State.setFb_mem (fb : FrameBuffer) : (s.setFb fb).mem = s.mem := rfl
@[simp] theorem State.setFb_stack (fb : FrameBuffer) : (s.setFb fb).stack = s.stack := rfl
@[simp] theorem State.setFb_fb (fb : FrameBuffer) : (s.setFb fb).fb = fb := rfl
@[simp] theorem State.setFb_keys (fb : FrameBuffer) : (s.setFb fb).keys = s.keys := rfl
@[simp] theorem State.setFb_fault (fb : FrameBuffer) : (s.setFb fb).fault = s.fault := rfl
@[simp] theorem State.setFb_cfg (fb : FrameBuffer) : (s.setFb fb).cfg = s.cfg := rfl
@[simp] theorem State.setFb_draws (fb : FrameBuffer) : (s.setFb fb).draws = s.draws := rfl

@[simp] theorem State.drawn_v : (s.drawn).v = s.v := rfl
@[simp] theorem State.drawn_i : (s.drawn).i = s.i := rfl
@[simp] theorem State.drawn_pc : (s.drawn).pc = s.pc := rfl
@[simp] theorem State.drawn_dt : (s.drawn).dt = s.dt := rfl
@[simp] theorem State.drawn_st : (s.drawn).st = s.st := rfl
@[simp] theorem State.drawn_paused : (s.drawn).paused = s.paused := rfl
@[simp] theorem State.drawn_mem : (s.drawn).mem = s.mem := rfl
@[simp] theorem State.drawn_stack : (s.drawn).stack = s.stack := rfl
@[simp] theorem State.drawn_fb : (s.drawn).fb = s.fb := rfl
@[simp] theorem State.drawn_keys : (s.drawn).keys = s.keys := rfl
@[simp] theorem State.drawn_fault : (s.drawn).fault = s.fault := rfl
@[simp] theorem State.drawn_cfg : (s.drawn).cfg = s.cfg := rfl
@[simp] theorem State.drawn_draws : (s.drawn).draws = s.draws + 1 := rfl

@[simp] theorem State.decay_v : (s.decay).v = s.v := rfl
@[simp] theorem State.decay_i : (s.decay).i = s.i := rfl
@[simp] theorem State.decay_pc : (s.decay).pc = s.pc := rfl
@[simp] theorem State.decay_dt : (s.decay).dt = decayTimer s.dt := rfl
@[simp] theorem State.decay_st : (s.decay).st = decayTimer s.st := rfl
@[simp] theorem State.decay_paused : (s.decay).paused = s.paused := rfl
@[simp] theorem State.decay_mem : (s.decay).mem = s.mem := rfl
@[simp] theorem State.decay_stack : (s.decay).stack = s.stack := rfl
@[simp] theorem State.decay_fb : (s.decay).fb = s.fb := rfl
@[simp] theorem State.decay_keys : (s.decay).keys = s.keys := rfl
@[simp] theorem State.decay_fault : (s.decay).fault = s.fault := rfl
@[simp] theorem State.decay_cfg : (s.decay).cfg = s.cfg := rfl
@[simp] theorem State.decay_draws : (s.decay).draws = s.draws := rfl

@[simp] theorem State.writeBytes_v (a : Nat) (bs : List Byte) : (s.writeBytes a bs).v = s.v := rfl
@[simp] theorem State.writeBytes_i (a : Nat) (bs : List Byte) : (s.writeBytes a bs).i = s.i := rfl
@[simp] theorem State.writeBytes_pc (a : Nat) (bs : List Byte) : (s.writeBytes a bs).pc = s.pc := rfl
@[simp] theorem State.writeBytes_dt (a : Nat) (bs : List Byte) : (s.writeBytes a bs).dt = s.dt := rfl
@[simp] theorem State.writeBytes_st (a : Nat) (bs : List Byte) : (s.writeBytes a bs).st = s.st := rfl
@[simp] theorem State.writeBytes_paused (a : Nat) (bs : List Byte) : (s.writeBytes a bs).paused = s.paused := rfl
@[simp] theorem State.writeBytes_mem (a : Nat) (bs : List Byte) : (s.writeBytes a bs).mem = s.mem.setBytes s.cfg.glyphTable a bs := rfl
@[simp] theorem State.writeBytes_stack (a : Nat) (bs : List Byte) : (s.writeBytes a bs).stack = s.stack := rfl
@[simp] theorem State.writeBytes_fb (a : Nat) (bs : List Byte) : (s.writeBytes a bs).fb = s.fb := rfl
@[simp] theorem State.writeBytes_keys (a : Nat) (bs : List Byte) : (s.writeBytes a bs).keys = s.keys := rfl
@[simp] theorem State.writeBytes_fault (a : Nat) (bs : List Byte) : (s.writeBytes a bs).fault = s.fault := rfl
@[simp] theorem State.writeBytes_cfg (a : Nat) (bs : List Byte) : (s.writeBytes a bs).cfg = s.cfg := rfl
@[simp] theorem State.writeBytes_draws (a : Nat) (bs : List Byte) : (s.writeBytes a bs).draws = s.draws := rfl

@[simp] theorem State.hostReset_v : s.hostReset.v = Vector.replicate 16 0 := rfl
@[simp] theorem State.hostReset_i : s.hostReset.i = 0 := rfl
@[simp] theorem State.hostReset_pc : s.hostReset.pc = 0x200 := rfl
@[simp] theorem State.hostReset_dt : s.hostReset.dt = 0 := rfl
@[simp] theorem State.hostReset_st : s.hostReset.st = 0 := rfl
@[simp] theorem State.hostReset_paused : s.hostReset.paused = false := rfl
@[simp] theorem State.hostReset_mem : s.hostReset.mem = { cells := [] } := rfl
@[simp] theorem State.hostReset_stack : s.hostReset.stack = [] := rfl
@[simp] theorem State.hostReset_fb : s.hostReset.fb = Vector.replicate 32 0 := rfl
@[simp] theorem State.hostReset_keys : s.hostReset.keys = Vector.replicate 16 false := rfl
@[simp] theorem State.hostReset_fault : s.hostReset.fault = .none := rfl
@[simp] theorem State.hostReset_cfg : s.hostReset.cfg = s.cfg := rfl
@[simp] theorem State.hostReset_draws : s.hostReset.draws = s.draws := rfl

@[simp] theorem State.keyWrite_v (k : Nibble) (down : Bool) : (s.keyWrite k down).v = s.v := rfl
@[simp] theorem State.keyWrite_i (k : Nibble) (down : Bool) : (s.keyWrite k down).i = s.i := rfl
@[simp] theorem State.keyWrite_pc (k : Nibble) (down : Bool) : (s.keyWrite k down).pc = s.pc := rfl
@[simp] theorem State.keyWrite_dt (k : Nibble) (down : Bool) : (s.keyWrite k down).dt = s.dt := rfl
@[simp] theorem State.keyWrite_st (k : Nibble) (down : Bool) : (s.keyWrite k down).st = s.st := rfl
@[simp] theorem State.keyWrite_paused (k : Nibble) (down : Bool) : (s.keyWrite k down).paused = s.paused := rfl
@[simp] theorem State.keyWrite_mem (k : Nibble) (down : Bool) : (s.keyWrite k down).mem = s.mem := rfl
@[simp] theorem State.keyWrite_stack (k : Nibble) (down : Bool) : (s.keyWrite k down).stack = s.stack := rfl
@[simp] theorem State.keyWrite_fb (k : Nibble) (down : Bool) : (s.keyWrite k down).fb = s.fb := rfl
@[simp] theorem State.keyWrite_keys (k : Nibble) (down : Bool) : (s.keyWrite k down).keys = s.keys.set k.toNat down k.isLt := rfl
@[simp] theorem State.keyWrite_fault (k : Nibble) (down : Bool) : (s.keyWrite k down).fault = s.fault := rfl
@[simp] theorem State.keyWrite_cfg (k : Nibble) (down : Bool) : (s.keyWrite k down).cfg = s.cfg := rfl
@[simp] theorem State.keyWrite_draws (k : Nibble) (down : Bool) : (s.keyWrite k down).draws = s.draws := rfl

@[simp] theorem State.skipIf_v (c : Bool) : (s.skipIf c).v = s.v := by cases c <;> rfl
@[simp] theorem State.skipIf_i (c : Bool) : (s.skipIf c).i = s.i := by cases c <;> rfl
@[simp] theorem State.skipIf_pc (c : Bool) : (s.skipIf c).pc = if c then s.pc + 2 else s.pc := by cases c <;> rfl
@[simp] theorem State.skipIf_dt (c : Bool) : (s.skipIf c).dt = s.dt := by cases c <;> rfl
@[simp] theorem State.skipIf_st (c : Bool) : (s.skipIf c).st = s.st := by cases c <;> rfl
@[simp] theorem State.skipIf_paused (c : Bool) : (s.skipIf c).paused = s.paused := by cases c <;> rfl
@[simp] theorem State.skipIf_mem (c : Bool) : (s.skipIf c).mem = s.mem := by cases c <;> rfl
@[simp] theorem State.skipIf_stack (c : Bool) : (s.skipIf c).stack = s.stack := by cases c <;> rfl
@[simp] theorem State.skipIf_fb (c : Bool) : (s.skipIf c).fb = s.fb := by cases c <;> rfl
@[simp] theorem State.skipIf_keys (c : Bool) : (s.skipIf c).keys = s.keys := by cases c <;> rfl
@[simp] theorem State.skipIf_fault (c : Bool) : (s.skipIf c).fault = s.fault := by cases c <;> rfl
@[simp] theorem State.skipIf_cfg (c : Bool) : (s.skipIf c).cfg = s.cfg := by cases c <;> rfl
@[simp] theorem State.skipIf_draws (c : Bool) : (s.skipIf c).draws = s.draws := by cases c <;> rfl

@[simp] theorem State.setResultFlag_i (x : Nibble) (r g : Byte) : (s.setResultFlag x r g).i = s.i := rfl
@[simp] theorem State.setResultFlag_pc (x : Nibble) (r g : Byte) : (s.setResultFlag x r g).pc = s.pc := rfl
@[simp] theorem State.setResultFlag_dt (x : Nibble) (r g : Byte) : (s.setResultFlag x r g).dt = s.dt := rfl
@[simp] theorem State.setResultFlag_st (x : Nibble) (r g : Byte) : (s.setResultFlag x r g).st = s.st := rfl
@[simp] theorem State.setResultFlag_paused (x : Nibble) (r g : Byte) : (s.setResultFlag x r g).paused = s.paused := rfl
@[simp] theorem State.setResultFlag_mem (x : Nibble) (r g : Byte) : (s.setResultFlag x r g).mem = s.mem := rfl
@[simp] theorem State.setResultFlag_stack (x : Nibble) (r g : Byte) : (s.setResultFlag x r g).stack = s.stack := rfl
@[simp] theorem State.setResultFlag_fb (x : Nibble) (r g : Byte) : (s.setResultFlag x r g).fb = s.fb := rfl
@[simp] theorem State.setResultFlag_keys (x : Nibble) (r g : Byte) : (s.setResultFlag x r g).keys = s.keys := rfl
@[simp] theorem State.setResultFlag_fault (x : Nibble) (r g : Byte) : (s.setResultFlag x r g).fault = s.fault := rfl
@[simp] theorem State.setResultFlag_cfg (x : Nibble) (r g : Byte) : (s.setResultFlag x r g).cfg = s.cfg := rfl
@[simp] theorem State.setResultFlag_draws (x : Nibble) (r g : Byte) : (s.setResultFlag x r g).draws = s.draws := rfl

@[simp] theorem State.finish_v : s.finish.v = s.v := by unfold State.finish; split <;> rfl
@[simp] theorem State.finish_i : s.finish.i = s.i := by unfold State.finish; split <;> rfl
@[simp] theorem State.finish_pc : s.finish.pc = s.pc := by unfold State.finish; split <;> rfl
theorem State.finish_dt : s.finish.dt = if s.fault = .none then decayTimer s.dt else s.dt := by
  unfold State.finish; split <;> rfl
theorem State.finish_st : s.finish.st = if s.fault = .none then decayTimer s.st else s.st := by
  unfold State.finish; split <;> rfl
@[simp] theorem State.finish_paused : s.finish.paused = s.paused := by unfold State.finish; split <;> rfl
@[simp] theorem State.finish_mem : s.finish.mem = s.mem := by unfold State.finish; split <;> rfl
@[simp] theorem State.finish_stack : s.finish.stack = s.stack := by unfold State.finish; split <;> rfl
@[simp] theorem State.finish_fb : s.finish.fb = s.fb := by unfold State.finish; split <;> rfl
@[simp] theorem State.finish_keys : s.finish.keys = s.keys := by unfold State.finish; split <;> rfl
@[simp] theorem State.finish_fault : s.finish.fault = s.fault := by unfold State.finish; split <;> rfl
@[simp] theorem State.finish_cfg : s.finish.cfg = s.cfg := by unfold State.finish; split <;> rfl
@[simp] theorem State.finish_draws : s.finish.draws = s.draws := by unfold State.finish; split <;> rfl

end Sys2Proof.Machine
end

