-- ==== Sys2Proof/Laws/Ops.lean ====
section
/-! SUPPORT. What each shared operation on the state can do, said once. -/

namespace Sys2Proof.Machine

variable (s : State)

/-! ## Registers -/

@[simp] theorem State.reg_mk_v (v : Vector Byte 16) (x : Nibble) : ({ s with v := v } : State).reg x = v[x.toNat]'x.isLt := rfl

/-- Reading a register after writing one. -/
theorem State.reg_setReg (x y : Nibble) (b : Byte) : (s.setReg x b).reg y = if x = y then b else s.reg y := by
  unfold State.reg State.setReg
  simp only [Vector.getElem_set, BitVec.toNat_inj]

@[simp] theorem State.reg_setReg_self (x : Nibble) (b : Byte) : (s.setReg x b).reg x = b := by simp [State.reg_setReg]

theorem State.reg_setReg_of_ne {x y : Nibble} (h : y ≠ x) (b : Byte) : (s.setReg x b).reg y = s.reg y := by
  simp [State.reg_setReg, h.symm]

/-- The flag of a result-and-flag instruction, whatever its destination (`43_alu.md` R186). -/
@[simp] theorem State.setResultFlag_flag (x : Nibble) (r g : Byte) : (s.setResultFlag x r g).reg 0xF#4 = g := by
  simp [State.setResultFlag]

theorem State.setResultFlag_result {x : Nibble} (h : x ≠ 0xF#4) (r g : Byte) : (s.setResultFlag x r g).reg x = r := by
  simp [State.setResultFlag, State.reg_setReg_of_ne _ h]

theorem State.setResultFlag_other {x y : Nibble} (hx : y ≠ x) (hf : y ≠ 0xF#4) (r g : Byte) :
    (s.setResultFlag x r g).reg y = s.reg y := by
  simp [State.setResultFlag, State.reg_setReg_of_ne _ hf, State.reg_setReg_of_ne _ hx]

theorem State.reg_setRegs (bs : List Byte) (y : Nibble) : (s.setRegs bs).reg y = bs.getD y.toNat (s.reg y) := by
  simp [State.reg, State.setRegs]

/-- A register read depends on the register file alone. -/
theorem State.reg_congr {s t : State} (h : t.v = s.v) (y : Nibble) : t.reg y = s.reg y := by simp [State.reg, h]

@[simp] theorem State.reg_advance (y : Nibble) : s.advance.reg y = s.reg y := rfl
@[simp] theorem State.reg_jump (t : Word) (y : Nibble) : (s.jump t).reg y = s.reg y := rfl
@[simp] theorem State.reg_setI (w : Word) (y : Nibble) : (s.setI w).reg y = s.reg y := rfl
@[simp] theorem State.reg_setFb (fb : FrameBuffer) (y : Nibble) : (s.setFb fb).reg y = s.reg y := rfl
@[simp] theorem State.reg_drawn (y : Nibble) : s.drawn.reg y = s.reg y := rfl
@[simp] theorem State.reg_decay (y : Nibble) : s.decay.reg y = s.reg y := rfl
@[simp] theorem State.reg_skipIf (c : Bool) (y : Nibble) : (s.skipIf c).reg y = s.reg y := by cases c <;> rfl
@[simp] theorem State.reg_finish (y : Nibble) : s.finish.reg y = s.reg y := State.reg_congr (by simp) y

/-! ## Memory as bytes -/

@[simp] theorem State.byte_setReg (x : Nibble) (b : Byte) (a : Nat) : (s.setReg x b).byte a = s.byte a := rfl
@[simp] theorem State.byte_setRegs (bs : List Byte) (a : Nat) : (s.setRegs bs).byte a = s.byte a := rfl
@[simp] theorem State.byte_setResultFlag (x : Nibble) (r g : Byte) (a : Nat) : (s.setResultFlag x r g).byte a = s.byte a := rfl
@[simp] theorem State.byte_advance (a : Nat) : s.advance.byte a = s.byte a := rfl
@[simp] theorem State.byte_jump (t : Word) (a : Nat) : (s.jump t).byte a = s.byte a := rfl
@[simp] theorem State.byte_setI (w : Word) (a : Nat) : (s.setI w).byte a = s.byte a := rfl
@[simp] theorem State.byte_setFb (fb : FrameBuffer) (a : Nat) : (s.setFb fb).byte a = s.byte a := rfl
@[simp] theorem State.byte_drawn (a : Nat) : s.drawn.byte a = s.byte a := rfl
@[simp] theorem State.byte_decay (a : Nat) : s.decay.byte a = s.byte a := rfl
@[simp] theorem State.byte_keyWrite (k : Nibble) (down : Bool) (a : Nat) : (s.keyWrite k down).byte a = s.byte a := rfl
@[simp] theorem State.byte_skipIf (c : Bool) (a : Nat) : (s.skipIf c).byte a = s.byte a := by cases c <;> rfl
@[simp] theorem State.byte_finish (a : Nat) : s.finish.byte a = s.byte a := State.byte_congr (by simp) (by simp) a
@[simp] theorem State.byte_hostReset (a : Nat) : s.hostReset.byte a = resetByte s.cfg.glyphTable a := rfl

/-- The registers `V[0] .. V[x]` as a list. -/
@[simp] theorem State.length_regsThrough (x : Nibble) : (s.regsThrough x).length = x.toNat + 1 := by
  have := x.isLt
  simp [State.regsThrough]; omega

theorem State.getD_regsThrough {x y : Nibble} (h : y.toNat ≤ x.toNat) (d : Byte) :
    (s.regsThrough x).getD y.toNat d = s.reg y := by
  have hy := y.isLt
  have hl : y.toNat < (s.regsThrough x).length := by rw [State.length_regsThrough]; omega
  rw [List.getD_eq_getElem _ _ hl]
  simp [State.regsThrough, State.reg]

/-! ## Taking a fault -/

@[simp] theorem State.raise_eq (c : Cause) : s.raise c = .next { s with fault := c } := rfl

/-! ## The call stack -/

/-- Everything a push can do. -/
theorem State.push?_eq_some {v : Word} {t : State} :
    s.push? v = some t ↔ s.sp ≠ s.cfg.stackDepth ∧ t = { s with stack := s.stack ++ [v] } := by
  unfold State.push?
  split <;> rename_i h <;> simp [h, eq_comm]

theorem State.push?_eq_none {v : Word} : s.push? v = none ↔ s.sp = s.cfg.stackDepth := by simp [State.push?]

/-- Everything a pop can do. -/
theorem State.pop?_eq_some {v : Word} {t : State} :
    s.pop? = some (v, t) ↔ s.stack = t.stack ++ [v] ∧ t = { s with stack := t.stack } := by
  unfold State.pop?
  constructor
  · intro h
    obtain ⟨w, hw, he⟩ := Option.map_eq_some_iff.1 h
    obtain ⟨rfl, rfl⟩ := Prod.mk.inj he
    exact ⟨(List.dropLast_append_getLast? _ hw).symm, rfl⟩
  · rintro ⟨hs, ht⟩
    rw [hs]
    simpa using ht.symm

theorem State.pop?_eq_none : s.pop? = none ↔ s.sp = 0 := by simp [State.pop?, State.sp]

/-! ## The frame buffer -/

@[simp] theorem fbPixel_fbClear (x y : Nat) : fbPixel fbClear x y = false := by simp [fbPixel, fbClear]

/-- A pixel after one toggle. -/
theorem fbPixel_fbToggle (fb : FrameBuffer) (cx cy x y : Nat) :
    fbPixel (fbToggle fb cx cy).1 x y = (fbPixel fb x y ^^ decide (cx % 64 = x % 64 ∧ cy % 32 = y % 32)) := by
  have hx : x % 64 < 64 := Nat.mod_lt _ (by decide)
  unfold fbPixel fbToggle
  simp only [Vector.getElem_set]
  by_cases hy : cy % 32 = y % 32
  · by_cases hc : cx % 64 = x % 64
    · simp [hy, hc, hx]
    · simp [hy, hc]
  · simp [hy]

@[simp] theorem fbToggle_snd (fb : FrameBuffer) (cx cy : Nat) : (fbToggle fb cx cy).2 = fbPixel fb cx cy := rfl

/-- Frame buffers with the same pixels are equal. -/
theorem fb_ext {a b : FrameBuffer} (h : ∀ x y, x < 64 → y < 32 → fbPixel a x y = fbPixel b x y) : a = b := by
  apply Vector.ext
  intro y hy
  apply BitVec.eq_of_getLsbD_eq
  intro x hx
  simpa [fbPixel, Nat.mod_eq_of_lt hx, Nat.mod_eq_of_lt hy] using h x y hx hy

/-- The pixel a sprite bit falls on. -/
def wrapAt (vx vy : Nat) (p : Nat × Nat) : Nat × Nat := ((vx + p.1) % 64, (vy + p.2) % 32)

/-- The pixels after a draw whose bits fall on distinct pixels: inverted where a bit falls, else unchanged. -/
theorem fbPixel_fbDraw (vx vy : Nat) (ps : List (Nat × Nat)) (hn : (ps.map (wrapAt vx vy)).Nodup) (fb : FrameBuffer)
    (x y : Nat) :
    fbPixel (fbDraw fb vx vy ps).1 x y = (fbPixel fb x y ^^ decide ((x % 64, y % 32) ∈ ps.map (wrapAt vx vy))) := by
  induction ps generalizing fb with
  | nil => simp [fbDraw]
  | cons p ps ih =>
    obtain ⟨hp, hn⟩ := List.nodup_cons.1 (by simpa using hn : (wrapAt vx vy p :: ps.map (wrapAt vx vy)).Nodup)
    simp only [fbDraw, ih hn, fbPixel_fbToggle, List.map_cons, List.mem_cons]
    by_cases he : (x % 64, y % 32) = wrapAt vx vy p
    · have : (vx + p.1) % 64 = x % 64 ∧ (vy + p.2) % 32 = y % 32 := by simpa [wrapAt, eq_comm] using he
      simp only [this, and_self, decide_true, Bool.xor_true, he, hp, decide_false, Bool.xor_false, true_or]
    · have : ¬((vx + p.1) % 64 = x % 64 ∧ (vy + p.2) % 32 = y % 32) := fun h => he (by simp [wrapAt, h.1, h.2])
      simp only [this, decide_false, Bool.xor_false, he, false_or]

/-- The collision of such a draw: some bit falls on a pixel that was lit before it. -/
theorem fbDraw_collision (vx vy : Nat) (ps : List (Nat × Nat)) (hn : (ps.map (wrapAt vx vy)).Nodup) (fb : FrameBuffer) :
    (fbDraw fb vx vy ps).2 = true ↔ ∃ p ∈ ps, fbPixel fb (vx + p.1) (vy + p.2) = true := by
  induction ps generalizing fb with
  | nil => simp [fbDraw]
  | cons p ps ih =>
    obtain ⟨hp, hn⟩ := List.nodup_cons.1 (by simpa using hn : (wrapAt vx vy p :: ps.map (wrapAt vx vy)).Nodup)
    simp only [fbDraw, Bool.or_eq_true, ih hn, fbToggle_snd, List.exists_mem_cons_iff]
    refine or_congr_right (exists_congr fun q => and_congr_right fun hq => ?_)
    have : ¬((vx + p.1) % 64 = (vx + q.1) % 64 ∧ (vy + p.2) % 32 = (vy + q.2) % 32) := fun h =>
      hp (List.mem_map.2 ⟨q, hq, by simp [wrapAt, h.1, h.2]⟩)
    rw [fbPixel_fbToggle, decide_eq_false this, Bool.xor_false]

/-- The set bits of a sprite's rows, as (column, row). -/
theorem mem_spriteBits {rows : List Byte} {p : Nat × Nat} :
    p ∈ spriteBits rows ↔ ∃ h : p.2 < rows.length, p.1 < 8 ∧ rows[p.2].getLsbD (7 - p.1) = true := by
  obtain ⟨c, r⟩ := p
  simp only [spriteBits, List.mem_flatMap, List.mem_map, List.mem_filter, List.mem_range, Prod.mk.injEq]
  constructor
  · rintro ⟨⟨b, k⟩, hk, c', ⟨hc, hb⟩, rfl, rfl⟩
    obtain ⟨hl, rfl⟩ := by simpa [List.mem_zipIdx_iff_getElem?, List.getElem?_eq_some_iff] using hk
    exact ⟨hl, hc, hb⟩
  · rintro ⟨hr, hc, hb⟩
    exact ⟨(rows[r], r), by simp [List.mem_zipIdx_iff_getElem?, hr], c, ⟨hc, hb⟩, rfl, rfl⟩

/-- A sprite lists no bit twice. -/
theorem nodup_spriteBits (rows : List Byte) : (spriteBits rows).Nodup := by
  unfold spriteBits
  rw [List.nodup_flatMap]
  refine ⟨fun p _ => (List.nodup_range.filter _).map fun a b h => (Prod.mk.inj h).1, ?_⟩
  have hz : (rows.zipIdx.map Prod.snd).Nodup := by simp [List.zipIdx_map_snd, List.nodup_range']
  refine (List.pairwise_map.1 hz).imp fun {p q} hpq => ?_
  intro a ha hb
  simp only [List.mem_map] at ha hb
  obtain ⟨_, _, rfl⟩ := ha
  obtain ⟨_, _, h⟩ := hb
  exact hpq (Prod.mk.inj h).2.symm

/-- Up to 32 rows, no two bits of a sprite fall on one pixel (`45_display.md` R236). -/
theorem nodup_wrapAt_spriteBits (vx vy : Nat) {rows : List Byte} (h : rows.length ≤ 32) :
    ((spriteBits rows).map (wrapAt vx vy)).Nodup := by
  refine List.Nodup.map_on (fun p hp q hq he => ?_) (nodup_spriteBits rows)
  obtain ⟨hp2, hp1, -⟩ := mem_spriteBits.1 hp
  obtain ⟨hq2, hq1, -⟩ := mem_spriteBits.1 hq
  simp only [wrapAt, Prod.mk.injEq] at he
  exact Prod.ext (by omega) (by omega)

/-! ## The key latch -/

theorem State.keyDown?_eq_none (k : Byte) : s.keyDown? k = none ↔ 15 < k.toNat := by
  simp [State.keyDown?]; omega

theorem State.keyDown?_of_le {k : Byte} (h : k.toNat ≤ 15) :
    s.keyDown? k = some (s.keys[k.toNat]'(by omega)) := by
  unfold State.keyDown?
  exact Vector.getElem?_eq_getElem _

theorem State.anyKey_eq_none : s.anyKey = none ↔ ∀ k (h : k < 16), s.keys[k] = false := by
  unfold State.anyKey
  rw [List.findIdx?_eq_none_iff]
  constructor
  · intro h k hk
    simpa using h s.keys[k] (by simp)
  · intro h b hb
    obtain ⟨k, hk, rfl⟩ := List.getElem_of_mem hb
    simpa using h k (by simpa using hk)

/-- `AnyKey()` is the least key that is down (`10_state.md` R43). -/
theorem State.anyKey_eq_some {k : Nat} :
    s.anyKey = some k ↔ ∃ h : k < 16, s.keys[k] = true ∧ ∀ j (hj : j < k), s.keys[j] = false := by
  unfold State.anyKey
  rw [List.findIdx?_eq_some_iff_getElem]
  simp

/-! ## The step around an instruction -/

theorem decayTimer_toNat (t : Byte) : (decayTimer t).toNat = t.toNat - 1 := by
  unfold decayTimer
  split
  · rename_i h; simp [h]
  · rename_i h
    have : t.toNat ≠ 0 := fun e => h (BitVec.eq_of_toNat_eq (by simpa using e))
    have := t.isLt
    rw [BitVec.toNat_sub]
    simp
    omega

/-- Everything a fetch can do. -/
theorem State.fetch_eq_some {iw : Word} :
    s.fetch = some iw ↔ s.pc.toNat ≤ 0xFFE ∧ iw = wordOfBytes (s.byte s.pc.toNat) (s.byte (s.pc.toNat + 1)) := by
  have : s.pc.toNat + 1 < memSize ↔ s.pc.toNat ≤ 0xFFE := by unfold memSize; omega
  unfold State.fetch
  rw [← this]
  split <;> rename_i h <;> simp [h, eq_comm]

theorem State.fetch_eq_none : s.fetch = none ↔ 0xFFF ≤ s.pc.toNat := by
  have : s.pc.toNat + 1 < memSize ↔ ¬ 0xFFF ≤ s.pc.toNat := by unfold memSize; omega
  simp only [State.fetch, this]
  simp

/-- Fetch depends on `PC` and memory alone. -/
theorem State.fetch_congr {s t : State} (hpc : t.pc = s.pc) (hm : ∀ a, t.byte a = s.byte a) : t.fetch = s.fetch := by
  simp [State.fetch, hpc, hm]

@[simp] theorem State.finish_eq_of_fault {s : State} (h : s.fault ≠ .none) : s.finish = s := by simp [State.finish, h]

end Sys2Proof.Machine
end

