-- ==== Sys2Proof/Laws/PerInstr.lean ====
section
/-! SUPPORT. Statements made instruction by instruction. Family TableRow: the word an instruction encodes to matches the
instruction's own row of the opcode table (`30_encoding.md` R95, R96). -/

namespace Sys2Proof.Laws.TableRow

/-- `encode i AND mask = match` for the mask and match of `i`'s row. -/
def Statement (i : Instr) : Prop := encode i &&& i.row.1 = i.row.2

theorem cls : Statement .cls := by unfold Statement; decide
theorem ret : Statement .ret := by unfold Statement; decide
theorem sys (nnn : Addr12) : Statement (.sys nnn) := (encodeNNN_and_F000 ..).trans rfl
theorem jp (nnn : Addr12) : Statement (.jp nnn) := (encodeNNN_and_F000 ..).trans rfl
theorem call (nnn : Addr12) : Statement (.call nnn) := (encodeNNN_and_F000 ..).trans rfl
theorem seImm (x : Nibble) (nn : Byte) : Statement (.seImm x nn) := (encodeXNN_and_F000 ..).trans rfl
theorem sneImm (x : Nibble) (nn : Byte) : Statement (.sneImm x nn) := (encodeXNN_and_F000 ..).trans rfl
theorem seReg (x : Nibble) (y : Nibble) (n : Nibble) : Statement (.seReg x y n) := (encodeXYN_and_F000 ..).trans rfl
theorem ldImm (x : Nibble) (nn : Byte) : Statement (.ldImm x nn) := (encodeXNN_and_F000 ..).trans rfl
theorem addImm (x : Nibble) (nn : Byte) : Statement (.addImm x nn) := (encodeXNN_and_F000 ..).trans rfl
theorem ldReg (x : Nibble) (y : Nibble) : Statement (.ldReg x y) := (encodeXYN_and_F00F ..).trans rfl
theorem or (x : Nibble) (y : Nibble) : Statement (.or x y) := (encodeXYN_and_F00F ..).trans rfl
theorem and (x : Nibble) (y : Nibble) : Statement (.and x y) := (encodeXYN_and_F00F ..).trans rfl
theorem xor (x : Nibble) (y : Nibble) : Statement (.xor x y) := (encodeXYN_and_F00F ..).trans rfl
theorem addReg (x : Nibble) (y : Nibble) : Statement (.addReg x y) := (encodeXYN_and_F00F ..).trans rfl
theorem sub (x : Nibble) (y : Nibble) : Statement (.sub x y) := (encodeXYN_and_F00F ..).trans rfl
theorem shr (x : Nibble) (y : Nibble) : Statement (.shr x y) := (encodeXYN_and_F00F ..).trans rfl
theorem subn (x : Nibble) (y : Nibble) : Statement (.subn x y) := (encodeXYN_and_F00F ..).trans rfl
theorem shl (x : Nibble) (y : Nibble) : Statement (.shl x y) := (encodeXYN_and_F00F ..).trans rfl
theorem sneReg (x : Nibble) (y : Nibble) (n : Nibble) : Statement (.sneReg x y n) := (encodeXYN_and_F000 ..).trans rfl
theorem ldI (nnn : Addr12) : Statement (.ldI nnn) := (encodeNNN_and_F000 ..).trans rfl
theorem jpV0 (nnn : Addr12) : Statement (.jpV0 nnn) := (encodeNNN_and_F000 ..).trans rfl
theorem rnd (x : Nibble) (nn : Byte) : Statement (.rnd x nn) := (encodeXNN_and_F000 ..).trans rfl
theorem drw (x : Nibble) (y : Nibble) (n : Nibble) : Statement (.drw x y n) := (encodeXYN_and_F000 ..).trans rfl
theorem skp (x : Nibble) : Statement (.skp x) := (encodeXNN_and_F0FF ..).trans rfl
theorem sknp (x : Nibble) : Statement (.sknp x) := (encodeXNN_and_F0FF ..).trans rfl
theorem ldVxDt (x : Nibble) : Statement (.ldVxDt x) := (encodeXNN_and_F0FF ..).trans rfl
theorem ldVxK (x : Nibble) : Statement (.ldVxK x) := (encodeXNN_and_F0FF ..).trans rfl
theorem ldDtVx (x : Nibble) : Statement (.ldDtVx x) := (encodeXNN_and_F0FF ..).trans rfl
theorem ldStVx (x : Nibble) : Statement (.ldStVx x) := (encodeXNN_and_F0FF ..).trans rfl
theorem addI (x : Nibble) : Statement (.addI x) := (encodeXNN_and_F0FF ..).trans rfl
theorem ldF (x : Nibble) : Statement (.ldF x) := (encodeXNN_and_F0FF ..).trans rfl
theorem ldB (x : Nibble) : Statement (.ldB x) := (encodeXNN_and_F0FF ..).trans rfl
theorem stRegs (x : Nibble) : Statement (.stRegs x) := (encodeXNN_and_F0FF ..).trans rfl
theorem ldRegs (x : Nibble) : Statement (.ldRegs x) := (encodeXNN_and_F0FF ..).trans rfl
theorem nop8 (x : Nibble) (y : Nibble) (n : Nibble) : Statement (.nop8 x y n) := (encodeXYN_and_F000 ..).trans rfl
theorem nopE (x : Nibble) (nn : Byte) : Statement (.nopE x nn) := (encodeXNN_and_F000 ..).trans rfl
theorem nopF (x : Nibble) (nn : Byte) : Statement (.nopF x nn) := (encodeXNN_and_F000 ..).trans rfl

end Sys2Proof.Laws.TableRow
end

