-- ==== Sys2Proof/Laws/Step.lean ====
section
/-! SUPPORT. What a step can do, said once, and what the shared memory operations of the meanings can do. -/

namespace Sys2Proof.Machine

/-- Everything a step can do when it gives a next state: nothing while `FAULT` is set, the fetch fault, or the decoded
instruction with what follows it. -/
theorem step_cases {s t : State} (h : step s = .next t) :
    (s.fault ≠ .none ∧ t = s) ∨
    (s.fault = .none ∧ s.fetch = none ∧ t = { s with fault := .fetchOutOfBounds }) ∨
    ∃ iw u, s.fault = .none ∧ s.fetch = some iw ∧ exec (decode iw) s = .next u ∧ t = u.finish := by
  unfold step at h
  split at h
  · exact .inl ⟨‹_›, by simpa using h.symm⟩
  · rename_i hf
    have hf : s.fault = .none := by simpa using hf
    split at h
    · exact .inr (.inl ⟨hf, ‹_›, by simpa using h.symm⟩)
    · rename_i iw hw
      split at h
      · rename_i u hu
        exact .inr (.inr ⟨iw, u, hf, hw, hu, by simpa using h.symm⟩)
      · cases h
      · cases h

/-- A step of a machine that has not faulted and can fetch is its instruction and what follows it. -/
theorem step_eq_of_fetch {s u : State} {iw : Word} (hf : s.fault = .none) (hw : s.fetch = some iw)
    (hu : exec (decode iw) s = .next u) : step s = .next u.finish := by
  simp [step, hf, hw, hu]

/-- A step while `FAULT` is set. -/
theorem step_eq_of_fault {s : State} (hf : s.fault ≠ .none) : step s = .next s := by simp [step, hf]

/-- A run of `k + 1` steps that starts with a step to `t`. -/
theorem run_succ {s t : State} (k : Nat) (h : step s = .next t) :
    Host.Core.run Sys2Proof.core (k + 1) s = Host.Core.run Sys2Proof.core k t := by
  have h' : Host.Core.step Sys2Proof.core s = .next t := h
  simp only [Host.Core.run, h']

/-- Everything a store from `I` upward can do. -/
theorem State.storeAtI_cases (s : State) (bs : List Byte) :
    ((bs.length = 0 ∨ s.i.toNat + bs.length ≤ memSize) ∧
      s.storeAtI bs = .next (s.writeBytes s.i.toNat bs).advance) ∨
    (bs.length ≠ 0 ∧ memSize < s.i.toNat + bs.length ∧ s.storeAtI bs = .next { s with fault := .memOutOfBounds }) := by
  unfold State.storeAtI State.ea
  cases h : s.write? s.i.toNat bs with
  | none => obtain ⟨h1, h2⟩ := State.write?_eq_none.1 h; exact .inr ⟨h1, h2, rfl⟩
  | some t => obtain ⟨h1, rfl⟩ := State.write?_eq_some.1 h; exact .inl ⟨h1, rfl⟩

end Sys2Proof.Machine
end

