-- ==== Sys2Proof/Tests/Slice0.lean ====
section
/-! SUPPORT. The model's own tests, with the expected values of `95_test_vectors.md` (S<n>, T<n>, P<n>) or computed by hand from
the rules, and for every obligation with hypotheses a witness: a concrete state and operands that meet them together. -/

open Sys2Proof Sys2Proof.Machine

/-- The word `w` placed where `s` fetches. -/
def Sys2Proof.Machine.State.withWord (s : State) (w : Nat) : State := s.withFetchWord 16 w

namespace Sys2Proof.Tests

/-! ## Helpers -/

/-- The state after reset with some registers set. -/
def withRegs (rs : List (Nibble × Byte)) : State := rs.foldl (fun s r => s.setReg r.1 r.2) State.reset

/-- What a next state shows; none where there is no next state. -/
def seen {α : Type} (o : Host.Outcome State Fault Refusal) (f : State → α) : Option α :=
  match o with
  | .next t => some (f t)
  | .fault _ => none
  | .refused _ => none

/-- The bytes of memory from `a` upward. -/
def bytes (a n : Nat) (s : State) : List Byte := (List.range n).map fun k => s.byte (a + k)

/-- The state with some keys down. -/
def keysDown (ks : List Nibble) (s : State) : State := ks.foldl (fun t k => t.keyWrite k true) s

/-! ## Well-formedness: each check refuses an ill-formed term and takes a well-formed one -/

theorem test_wf_sys : (Instr.sys 0x0E0).wf = false ∧ (Instr.sys 0x0EE).wf = false ∧ (Instr.sys 0x0EF).wf = true := by decide
theorem test_wf_nop8 :
    (Instr.nop8 1 2 0x0).wf = false ∧ (Instr.nop8 1 2 0xE).wf = false ∧ (Instr.nop8 1 2 0x8).wf = true := by decide
theorem test_wf_nopE : (Instr.nopE 1 0x9E).wf = false ∧ (Instr.nopE 1 0xA1).wf = false ∧ (Instr.nopE 1 0x9F).wf = true := by decide
theorem test_wf_nopF : (Instr.nopF 1 0x07).wf = false ∧ (Instr.nopF 1 0x65).wf = false ∧ (Instr.nopF 1 0x08).wf = true := by decide

/-! ## Decoding: a word of every constructor, written out from the patterns of `30_encoding.md` R96 to R98 -/

theorem test_decode_control :
    decode 0x00E0 = .cls ∧ decode 0x00EE = .ret ∧ decode 0x0ABC = .sys 0xABC ∧ decode 0x1ABC = .jp 0xABC ∧
    decode 0x2ABC = .call 0xABC ∧ decode 0xB123 = .jpV0 0x123 := by decide
theorem test_decode_skips :
    decode 0x3A05 = .seImm 0xA 0x05 ∧ decode 0x4A05 = .sneImm 0xA 0x05 ∧ decode 0x5AB3 = .seReg 0xA 0xB 0x3 ∧
    decode 0x9AB3 = .sneReg 0xA 0xB 0x3 := by decide
theorem test_decode_loads :
    decode 0x6CAB = .ldImm 0xC 0xAB ∧ decode 0x7302 = .addImm 0x3 0x02 ∧ decode 0x8AB0 = .ldReg 0xA 0xB ∧
    decode 0xC10F = .rnd 0x1 0x0F ∧ decode 0xA123 = .ldI 0x123 ∧ decode 0xD12A = .drw 0x1 0x2 0xA := by decide
theorem test_decode_class8 :
    decode 0x8AB1 = .or 0xA 0xB ∧ decode 0x8AB2 = .and 0xA 0xB ∧ decode 0x8AB3 = .xor 0xA 0xB ∧
    decode 0x8AB4 = .addReg 0xA 0xB ∧ decode 0x8AB5 = .sub 0xA 0xB ∧ decode 0x8AB6 = .shr 0xA 0xB ∧
    decode 0x8AB7 = .subn 0xA 0xB ∧ decode 0x8ABE = .shl 0xA 0xB ∧ decode 0x8ABF = .nop8 0xA 0xB 0xF := by decide
theorem test_decode_classE :
    decode 0xEF9E = .skp 0xF ∧ decode 0xE1A1 = .sknp 0x1 ∧ decode 0xE0A2 = .nopE 0x0 0xA2 := by decide
theorem test_decode_classF :
    decode 0xF207 = .ldVxDt 0x2 ∧ decode 0xF30A = .ldVxK 0x3 ∧ decode 0xF115 = .ldDtVx 0x1 ∧ decode 0xF118 = .ldStVx 0x1 ∧
    decode 0xF21E = .addI 0x2 ∧ decode 0xF029 = .ldF 0x0 ∧ decode 0xF133 = .ldB 0x1 ∧ decode 0xF255 = .stRegs 0x2 ∧
    decode 0xF165 = .ldRegs 0x1 ∧ decode 0xFF75 = .nopF 0xF 0x75 := by decide
/-- T7, the memory image: the byte at the lower address first. -/
theorem test_decode_bytes : decodeBytes [0xD1, 0x2A] = .ok (.drw 0x1 0x2 0xA, []) ∧ decodeBytes [0xD1] = .error .truncated := by
  decide
/-- The table has 38 rows (R96, R98), and none is listed twice. -/
theorem test_table_rows : opcodeRows.length = 38 ∧ opcodeRows.Nodup := by decide
/-- R95: the rows stand with the masks of more 1 bits first. -/
theorem test_table_order :
    (opcodeRows.map fun r => r.1.cpop.toNat).Pairwise (fun a b => b ≤ a) := by decide
theorem test_table_word : decodeTableWord 16 0xD12A = some (.drw 0x1 0x2 0xA) := by decide

/-! ## One step of every instruction -/

/-- T1 2, T1 3. -/
theorem test_sys : seen (step (State.reset.withWord 0x0ABC)) (·.pc) = some 0x202 ∧
    seen (step (State.reset.withWord 0x00EF)) (fun t => (t.pc, t.fault)) = some (0x202, .none) := by decide
/-- T1 4, T1 5. -/
theorem test_jp : seen (step (State.reset.withWord 0x1ABC)) (·.pc) = some 0xABC ∧
    seen (step (State.reset.withWord 0x1201)) (·.pc) = some 0x201 := by decide
/-- T1 7. -/
theorem test_call : seen (step (State.reset.withWord 0x2ABC)) (fun t => (t.stack, t.pc)) = some ([0x202], 0xABC) := by decide
/-- T1 10, its last step. -/
theorem test_call_full :
    seen (step ({ State.reset with stack := List.replicate 16 0x202 }.withWord 0x2200)) (fun t => (t.faultOut, t.sp, t.pc)) =
      some (4, 16, 0x200) := by decide
/-- T1 8. -/
theorem test_ret :
    seen (step ({ State.reset with stack := [0x202], pc := 0xABC }.withWord 0x00EE)) (fun t => (t.stack, t.pc)) =
      some ([], 0x202) := by decide
/-- T1 9. -/
theorem test_ret_empty :
    seen (step (State.reset.withWord 0x00EE)) (fun t => (t.faultOut, t.pc, t.sp)) = some (3, 0x200, 0) := by decide
/-- T1 11, T1 12. -/
theorem test_jpV0 : seen (step ((withRegs [(0, 0x04)]).withWord 0xB300)) (·.pc) = some 0x304 ∧
    seen (step ((withRegs [(0, 0xFF)]).withWord 0xBFFF)) (·.pc) = some 0x10FE := by decide
/-- T2 1, T2 2. -/
theorem test_seImm : seen (step ((withRegs [(0xA, 5)]).withWord 0x3A05)) (·.pc) = some 0x204 ∧
    seen (step ((withRegs [(0xA, 6)]).withWord 0x3A05)) (·.pc) = some 0x202 := by decide
/-- T2 3, T2 4. -/
theorem test_sneImm : seen (step ((withRegs [(0xA, 5)]).withWord 0x4A05)) (·.pc) = some 0x202 ∧
    seen (step ((withRegs [(0xA, 6)]).withWord 0x4A05)) (·.pc) = some 0x204 := by decide
/-- T2 6, T2 8. -/
theorem test_seReg : seen (step ((withRegs [(1, 0x33), (2, 0x34)]).withWord 0x5120)) (·.pc) = some 0x202 ∧
    seen (step ((withRegs [(1, 0x33), (2, 0x33)]).withWord 0x5127)) (·.pc) = some 0x204 := by decide
/-- T2 9, T2 10. -/
theorem test_sneReg : seen (step ((withRegs [(1, 1), (2, 2)]).withWord 0x9120)) (·.pc) = some 0x204 ∧
    seen (step ((withRegs [(1, 2), (2, 2)]).withWord 0x9120)) (·.pc) = some 0x202 := by decide
/-- T3 1, T3 2. -/
theorem test_ldImm : seen (step (State.reset.withWord 0x6CAB)) (·.reg 0xC) = some 0xAB ∧
    seen (step (State.reset.withWord 0x6F55)) (·.reg 0xF) = some 0x55 := by decide
/-- S1, T3 5. -/
theorem test_addImm :
    seen (step ((withRegs [(3, 0xFF)]).withWord 0x7302)) (fun t => (t.reg 3, t.reg 0xF, t.pc)) = some (0x01, 0, 0x202) ∧
    seen (step ((withRegs [(0xF, 0xFE)]).withWord 0x7F03)) (·.reg 0xF) = some 0x01 := by decide
/-- T3 6. -/
theorem test_ldReg : seen (step ((withRegs [(2, 0x7E)]).withWord 0x8120)) (·.reg 1) = some 0x7E := by decide
/-- T3 7. -/
theorem test_or : seen (step ((withRegs [(1, 0x0F), (2, 0xF0), (0xF, 9)]).withWord 0x8121)) (fun t => (t.reg 1, t.reg 0xF)) =
    some (0xFF, 9) := by decide
/-- T3 8. -/
theorem test_and : seen (step ((withRegs [(1, 0x3C), (2, 0x0F)]).withWord 0x8122)) (·.reg 1) = some 0x0C := by decide
/-- T3 9, T3 10. -/
theorem test_xor : seen (step ((withRegs [(1, 0xFF), (2, 0x0F)]).withWord 0x8123)) (·.reg 1) = some 0xF0 ∧
    seen (step ((withRegs [(1, 0x5A)]).withWord 0x8113)) (·.reg 1) = some 0 := by decide
/-- T3 12, T3 13. -/
theorem test_addReg :
    seen (step ((withRegs [(1, 0x80), (2, 0x7F)]).withWord 0x8124)) (fun t => (t.reg 1, t.reg 0xF)) = some (0xFF, 0) ∧
    seen (step ((withRegs [(1, 0xFF), (2, 0x01), (0xF, 7)]).withWord 0x8124)) (fun t => (t.reg 1, t.reg 0xF)) = some (0, 1) := by
  decide
/-- T3 15, T3 16: the flag register as X and as Y. -/
theorem test_addReg_flag :
    seen (step ((withRegs [(0xF, 0xC8), (1, 0x64)]).withWord 0x8F14)) (·.reg 0xF) = some 0x01 ∧
    seen (step ((withRegs [(1, 0x64), (0xF, 0xC8)]).withWord 0x81F4)) (fun t => (t.reg 1, t.reg 0xF)) = some (0x2C, 0x01) := by decide
/-- T3 18. -/
theorem test_sub : seen (step ((withRegs [(1, 0x12), (2, 0x34)]).withWord 0x8125)) (fun t => (t.reg 1, t.reg 0xF)) =
    some (0xDE, 0) := by decide
/-- T3 19: equal is not greater. -/
theorem test_sub_equal : seen (step ((withRegs [(1, 0x44), (2, 0x44)]).withWord 0x8125)) (fun t => (t.reg 1, t.reg 0xF)) =
    some (0, 0) := by decide
/-- T3 21, T3 23. -/
theorem test_subn :
    seen (step ((withRegs [(1, 0x03), (2, 0x0A)]).withWord 0x8127)) (fun t => (t.reg 1, t.reg 0xF)) = some (0x07, 1) ∧
    seen (step ((withRegs [(1, 0x44), (2, 0x44)]).withWord 0x8127)) (fun t => (t.reg 1, t.reg 0xF)) = some (0, 0) := by decide

/-- The state with the straps set. -/
def strapped (legacy : Bool) (m : ShlFlag) (s : State) : State :=
  { s with cfg := { s.cfg with legacyShiftSource := legacy, shlFlag := m } }

/-- T3 24, T3 25. -/
theorem test_shr :
    seen (step ((strapped false .high8 (withRegs [(1, 5), (2, 8)])).withWord 0x8126)) (fun t => (t.reg 1, t.reg 0xF, t.reg 2)) =
      some (2, 1, 8) ∧
    seen (step ((strapped true .high8 (withRegs [(1, 5), (2, 8)])).withWord 0x8126)) (fun t => (t.reg 1, t.reg 0xF, t.reg 2)) =
      some (4, 0, 8) := by decide
/-- T3 28, T3 29: the flag overwrites the result. -/
theorem test_shr_flag : seen (step ((withRegs [(0xF, 3)]).withWord 0x8FF6)) (·.reg 0xF) = some 1 ∧
    seen (step ((withRegs [(0xF, 2)]).withWord 0x8FF6)) (·.reg 0xF) = some 0 := by decide
/-- T3 33, T3 34, T3 35: legacy mode, in the three flag modes. -/
theorem test_shl_legacy :
    seen (step ((strapped true .high8 (withRegs [(1, 0xC9), (2, 8)])).withWord 0x812E)) (fun t => (t.reg 1, t.reg 0xF)) =
      some (0x10, 0) ∧
    seen (step ((strapped true .bit3 (withRegs [(1, 0xC9), (2, 8)])).withWord 0x812E)) (fun t => (t.reg 1, t.reg 0xF)) =
      some (0x10, 8) ∧
    seen (step ((strapped true .conv (withRegs [(1, 0xC9), (2, 8)])).withWord 0x812E)) (fun t => (t.reg 1, t.reg 0xF)) =
      some (0x10, 0) := by decide
/-- T3 36: modern mode, in the three flag modes. -/
theorem test_shl :
    seen (step ((strapped false .high8 (withRegs [(1, 0x81)])).withWord 0x811E)) (fun t => (t.reg 1, t.reg 0xF)) = some (2, 8) ∧
    seen (step ((strapped false .bit3 (withRegs [(1, 0x81)])).withWord 0x811E)) (fun t => (t.reg 1, t.reg 0xF)) = some (2, 0) ∧
    seen (step ((strapped false .conv (withRegs [(1, 0x81)])).withWord 0x811E)) (fun t => (t.reg 1, t.reg 0xF)) = some (2, 1) := by
  decide
/-- R200: the drawn byte, whatever it is, AND NN. -/
theorem test_rnd : seen (step (State.reset.withWord 0xC10F)) (fun t => (t.reg 1, t.pc)) = some (Config.rand8 0 &&& 0x0F, 0x202) := rfl
/-- T4 1, T4 2. -/
theorem test_ldI : seen (step (State.reset.withWord 0xA050)) (·.i) = some 0x50 ∧
    seen (step (State.reset.withWord 0xAFFF)) (·.i) = some 0xFFF := by decide
/-- T4 4, T4 5. -/
theorem test_addI :
    seen (step ({ withRegs [(2, 1)] with i := 0xFFF }.withWord 0xF21E)) (fun t => (t.i, t.reg 0xF)) = some (0x1000, 0) ∧
    seen (step ({ withRegs [(2, 0x20)] with i := 0xFFF0 }.withWord 0xF21E)) (·.i) = some 0x10 := by decide
/-- T4 6, T4 9. -/
theorem test_ldF : seen (step ((withRegs [(0, 0x0A)]).withWord 0xF029)) (·.i) = some 0x82 ∧
    seen (step ((withRegs [(0, 0xFF)]).withWord 0xF029)) (·.i) = some 0x54B := by decide
/-- T4 10, T4 14. -/
theorem test_ldB :
    seen (step ({ withRegs [(1, 0x9C)] with i := 0x300 }.withWord 0xF133)) (bytes 0x300 3) = some [1, 5, 6] ∧
    seen (step ({ withRegs [(1, 0x07)] with i := 0xFFD }.withWord 0xF133)) (bytes 0xFFD 3) = some [0, 0, 7] := by decide
/-- T4 15. -/
theorem test_ldB_edge : seen (step ({ withRegs [(1, 0x07)] with i := 0xFFE }.withWord 0xF133))
    (fun t => (t.faultOut, t.pc, bytes 0xFFE 2 t)) = some (2, 0x200, [0, 0]) := by decide
/-- T4 16. -/
theorem test_stRegs : seen (step ({ withRegs [(0, 1), (1, 2), (2, 3)] with i := 0x400 }.withWord 0xF255))
    (fun t => (bytes 0x400 4 t, t.i)) = some ([1, 2, 3, 0], 0x400) := by decide
/-- T4 17, T4 18. -/
theorem test_stRegs_edge :
    seen (step ({ withRegs [(0, 0x99)] with i := 0xFFF }.withWord 0xF055)) (bytes 0xFFF 1) = some [0x99] ∧
    seen (step ({ withRegs [(0, 0x99)] with i := 0xFFF }.withWord 0xF155)) (fun t => (t.faultOut, bytes 0xFFF 1 t)) =
      some (2, [0]) := by decide
/-- T4 21, T4 23: the glyph "0", and a program reading its own code. -/
theorem test_ldRegs :
    seen (step ({ State.reset with i := 0x50 }.withWord 0xF465)) (fun t => [t.reg 0, t.reg 1, t.reg 2, t.reg 3, t.reg 4]) =
      some [0xF0, 0x90, 0x90, 0x90, 0xF0] ∧
    seen (step ({ State.reset with i := 0x200 }.withWord 0xF165)) (fun t => (t.reg 0, t.reg 1)) = some (0xF1, 0x65) := by decide
/-- T4 22. -/
theorem test_ldRegs_edge : seen (step ({ State.reset with i := 0xFF1 }.withWord 0xFF65)) (fun t => (t.faultOut, t.v)) =
    some (2, State.reset.v) := by decide
/-- T5 1. -/
theorem test_cls : seen (step ({ withRegs [(0xF, 7)] with fb := (fbToggle fbClear 5 5).1 }.withWord 0x00E0))
    (fun t => (t.fb, t.reg 0xF)) = some (fbClear, 7) := by decide
/-- T5 4: the sprite wraps round the right edge. -/
theorem test_drw_wraps :
    seen (step ({ withRegs [(1, 63), (2, 31)] with i := 0x300, mem := { cells := [(0x300, 0xFF)] } }.withWord 0xD121))
      (fun t => (t.fb[31], t.reg 0xF)) = some (0x800000000000007F, 0) := by decide
/-- T5 7: a collision. -/
theorem test_drw_collides :
    seen (step ({ State.reset with i := 0x300, mem := { cells := [(0x300, 0xC0)] }, fb := (fbToggle fbClear 1 0).1 }.withWord 0xD121))
      (fun t => (t.fb, t.reg 0xF)) = some ((fbToggle fbClear 0 0).1, 1) := by decide
/-- T6 1, T6 2. -/
theorem test_skp : seen (step (keysDown [0xA] ((withRegs [(1, 0x0A)]).withWord 0xE19E))) (·.pc) = some 0x204 ∧
    seen (step ((withRegs [(1, 0x0A)]).withWord 0xE19E)) (·.pc) = some 0x202 := by decide
/-- T6 5. -/
theorem test_skp_range : seen (step ((withRegs [(1, 0x10)]).withWord 0xE19E)) (fun t => (t.faultOut, t.pc)) = some (5, 0x200) := by
  decide
/-- T6 3, T6 4. -/
theorem test_sknp : seen (step (keysDown [0xA] ((withRegs [(1, 0x0A)]).withWord 0xE1A1))) (·.pc) = some 0x202 ∧
    seen (step (keysDown [0xB] ((withRegs [(1, 0x0A)]).withWord 0xE1A1))) (·.pc) = some 0x204 := by decide
/-- T6 6. -/
theorem test_sknp_range : seen (step ((withRegs [(1, 0xFF)]).withWord 0xE1A1)) (·.faultOut) = some 5 := by decide
/-- T6 8, T6 10. -/
theorem test_ldVxK : seen (step (State.reset.withWord 0xF30A)) (fun t => (t.paused, t.pc, t.reg 3)) = some (true, 0x200, 0) ∧
    seen (step (keysDown [0] (State.reset.withWord 0xF30A))) (fun t => (t.paused, t.pc, t.reg 3)) = some (false, 0x202, 0) := by decide
/-- T6 9: the wait ends with the lowest of two keys. -/
theorem test_ldVxK_resumes :
    seen (step (keysDown [9, 7] ({ State.reset with paused := true }.withWord 0xF30A))) (fun t => (t.paused, t.pc, t.reg 3)) =
      some (false, 0x202, 7) := by decide
/-- T6 13. -/
theorem test_ldVxDt : seen (step ({ State.reset with dt := 0x10 }.withWord 0xF207)) (fun t => (t.reg 2, t.dt)) =
    some (0x10, 0x0F) := by decide
/-- T6 15, T6 16. -/
theorem test_ldDtVx : seen (step ((withRegs [(1, 5)]).withWord 0xF115)) (·.dt) = some 4 ∧
    seen (step ({ State.reset with dt := 9 }.withWord 0xF115)) (·.dt) = some 0 := by decide
/-- T6 18. -/
theorem test_ldStVx : seen (step ((withRegs [(1, 2)]).withWord 0xF118)) (·.st) = some 1 := by decide
/-- T3 42. -/
theorem test_nop8 : seen (step ((withRegs [(1, 7), (2, 9), (0xF, 5)]).withWord 0x8128)) (fun t => (t.pc, t.v)) =
    some (0x202, (withRegs [(1, 7), (2, 9), (0xF, 5)]).v) := by decide
/-- T6 7. -/
theorem test_nopE : seen (step (keysDown [0xA] ((withRegs [(1, 0x0A)]).withWord 0xE19F))) (·.pc) = some 0x202 := by decide
/-- T6 20. -/
theorem test_nopF : seen (step ((withRegs [(1, 5)]).withWord 0xF108)) (fun t => (t.pc, t.reg 1, t.st)) = some (0x202, 5, 0) := by decide

/-! ## The step around the instruction, and the host -/

/-- T6 21. -/
theorem test_decay : seen (step ({ State.reset with dt := 3, st := 1 }.withWord 0x0000)) (fun t => (t.dt, t.st)) = some (2, 0) := by
  decide
/-- T1 13, T1 14: the last address a fetch reaches, and the next one. -/
theorem test_fetch_edge :
    seen (step ({ State.reset with pc := 0xFFE }.withWord 0x6007)) (fun t => (t.reg 0, t.pc)) = some (7, 0x1000) ∧
    seen (step { State.reset with pc := 0xFFF }) (fun t => (t.faultOut, t.pc)) = some (1, 0xFFF) := by decide
/-- T5 9, T5 10, T5 11: a sprite of no rows, one that ends in the store, one that does not. -/
theorem test_drw_rows :
    seen (step ({ withRegs [(0xF, 1)] with i := 0xFFFF }.withWord 0xD120)) (fun t => (t.faultOut, t.reg 0xF)) = some (0, 0) ∧
    seen (step ({ State.reset with i := 0xFFE, mem := { cells := [(0xFFE, 0x80), (0xFFF, 0x80)] } }.withWord 0xD122))
      (fun t => (t.fb[0], t.fb[1])) = some (1, 1) ∧
    seen (step ({ withRegs [(0xF, 5)] with i := 0xFFE }.withWord 0xD123)) (fun t => (t.faultOut, t.reg 0xF, t.pc)) =
      some (2, 5, 0x200) := by decide
/-- R45: the glyph "0" at 0x50 and the last byte of the glyph "F" at 0x9F, with zeros round them. -/
theorem test_glyphs : bytes 0x4F 6 State.reset = [0, 0xF0, 0x90, 0x90, 0x90, 0xF0] ∧ bytes 0x9F 2 State.reset = [0x80, 0] := by
  decide
/-- Writing the byte an unlisted address reads as removes the entry, so equal memories are equal data (log 4). -/
theorem test_memory_canonical :
    (({ cells := [(0x300, 5)] } : Memory).setByte defaultGlyphTable 0x300 0).cells = [] ∧
    (({ cells := [] } : Memory).setByte defaultGlyphTable 0x50 0).cells = [(0x50, 0)] := by decide
/-- D11: a machine built with another glyph table reads that one, in the first step after reset. -/
theorem test_glyph_parameter :
    seen (step ({ State.resetWith { builtConfig with glyphTable := Vector.replicate 80 0xAA } with i := 0x9F }.withWord 0xF165))
      (fun t => (t.reg 0, t.reg 1)) = some (0xAA, 0) := by decide
/-- Reset keeps the straps and clears the rest (R310, R33). -/
theorem test_hostReset :
    ({ strapped true .conv (withRegs [(1, 5)]) with fault := .stackOverflow }.hostReset) = strapped true .conv State.reset := by
  decide

/-! ## Witnesses: the hypotheses of each obligation, met together, and each clause at the edge of its range -/

theorem witness_DecodeInvertsEncode : (Instr.nopF 0xF 0xFF).wf = true ∧ (Instr.nop8 0 0 0xF).wf = true := by decide

theorem witness_FetchIsBigEndian : ({ State.reset with pc := 0xFFE } : State).pc.toNat ≤ 0xFFE := by decide

theorem witness_FetchPastTheStoreRaises :
    ({ State.reset with pc := 0xFFF } : State).fault = .none ∧ 0xFFF ≤ ({ State.reset with pc := 0xFFF } : State).pc.toNat := by
  decide

/-- An ADD of an immediate, which completes. -/
def adds : State := (withRegs [(3, 0xFF)]).withWord 0x7302

/-- A RET on an empty stack, which raises. -/
def raises : State := State.reset.withWord 0x00EE

/-- A machine that has faulted. -/
def faulted : State := { State.reset with fault := .stackUnderflow }

theorem witness_StepRunsTheDecodedInstruction_next :
    adds.fault = .none ∧ adds.pc.toNat ≤ 0xFFE ∧ (Instr.addImm 3 2).wf = true ∧
    decodeBytes [adds.byte adds.pc.toNat, adds.byte (adds.pc.toNat + 1)] = .ok (.addImm 3 2, []) ∧
    ∃ t, exec (.addImm 3 2) adds = .next t ∧ t.fault = .none := ⟨by decide, by decide, by decide, by decide, _, rfl, by decide⟩

theorem witness_StepRunsTheDecodedInstruction_raise :
    raises.fault = .none ∧ raises.pc.toNat ≤ 0xFFE ∧ Instr.ret.wf = true ∧
    decodeBytes [raises.byte raises.pc.toNat, raises.byte (raises.pc.toNat + 1)] = .ok (.ret, []) ∧
    ∃ t, exec .ret raises = .next t ∧ t.fault ≠ .none := ⟨by decide, by decide, by decide, by decide, _, rfl, by decide⟩

theorem witness_FaultedMachineIsStuck : faulted.fault ≠ .none := by decide

theorem witness_TimersDecayOncePerInstruction_other :
    adds.fault = .none ∧ adds.fetch = some 0x7302 ∧ (∃ t, step adds = .next t ∧ t.fault = .none) ∧
    (∀ x, decode 0x7302 ≠ .ldDtVx x) ∧ ∀ x, decode 0x7302 ≠ .ldStVx x :=
  ⟨by decide, by decide, ⟨_, rfl, by decide⟩, by decide, by decide⟩

theorem witness_TimersDecayOncePerInstruction_timer :
    (∃ t, step ((withRegs [(1, 5)]).withWord 0xF115) = .next t ∧ t.fault = .none) ∧ decode 0xF115 = .ldDtVx 1 ∧
    (∃ t, step ((withRegs [(1, 5)]).withWord 0xF118) = .next t ∧ t.fault = .none) ∧ decode 0xF118 = .ldStVx 1 :=
  ⟨⟨_, rfl, by decide⟩, by decide, ⟨_, rfl, by decide⟩, by decide⟩

/-- S7: the words 0000 from 0x200 on, with `DT` 1 before the first of two steps. -/
def countdown : Nat → State
  | 0 => { State.reset with dt := 1 }
  | 1 => { State.reset with dt := 0, pc := 0x202 }
  | _ => { State.reset with dt := 0, pc := 0x204 }

theorem witness_DelayTimerCountsInstructions :
    ∀ j < 2, (countdown j).fault = .none ∧ step (countdown j) = .next (countdown (j + 1)) ∧
      (countdown (j + 1)).fault = .none ∧ ∀ iw x, (countdown j).fetch = some iw → decode iw ≠ .ldDtVx x := by
  intro j hj
  have word : (countdown j).fetch = some 0x0000 := by
    match j, hj with
    | 0, _ => decide
    | 1, _ => decide
  refine ⟨?_, ?_, ?_, fun iw x h => ?_⟩
  · match j, hj with
    | 0, _ => rfl
    | 1, _ => rfl
  · match j, hj with
    | 0, _ => rfl
    | 1, _ => rfl
  · match j, hj with
    | 0, _ => rfl
    | 1, _ => rfl
  · cases word.symm.trans h
    revert x
    decide

/-- Words of the four no-op spaces, each next to a recognised one, from a machine that is paused and from one that is not. -/
theorem witness_UnrecognisedWordsAreNoOps :
    (∀ w ∈ ([0x00EF, 0x812F, 0xE19F, 0xF108] : List Nat), (State.reset.withWord w).fault = .none ∧
      (State.reset.withWord w).fetch = some (BitVec.ofNat 16 w) ∧ (State.reset.withWord w).paused = false ∧
      ({ State.reset with paused := true }.withWord w).paused = true) ∧
    (fieldClass 0x00EF = 0x0 ∧ (0x00EF : Word) ≠ 0x00E0 ∧ (0x00EF : Word) ≠ 0x00EE) ∧
    (fieldClass 0x812F = 0x8 ∧ fieldN 0x812F ∈ ([0x8, 0x9, 0xA, 0xB, 0xC, 0xD, 0xF] : List Nibble)) ∧
    (fieldClass 0xE19F = 0xE ∧ fieldNN 0xE19F ≠ 0x9E ∧ fieldNN 0xE19F ≠ 0xA1) ∧
    (fieldClass 0xF108 = 0xF ∧ fieldNN 0xF108 ∉ ([0x07, 0x0A, 0x15, 0x18, 0x1E, 0x29, 0x33, 0x55, 0x65] : List Byte)) := by
  decide

/-- The last entry that fits, and a full stack. -/
theorem witness_CallPushesTheReturnAddress :
    ({ State.reset with stack := List.replicate 15 0x202 } : State).sp ≠ State.reset.cfg.stackDepth ∧
    ({ State.reset with stack := List.replicate 16 0x202 } : State).sp = State.reset.cfg.stackDepth := by decide

theorem witness_ReturnPopsIntoPc :
    ({ State.reset with stack := [0x202, 0x300] } : State).stack = [0x202] ++ [0x300] ∧ State.reset.sp = 0 := by decide

theorem witness_ReturnComesBackAfterCall :
    ({ State.reset with stack := List.replicate 15 0x202 } : State).sp ≠ State.reset.cfg.stackDepth := by decide

/-- The last jump target with a word to fetch, and the first without. -/
theorem witness_SetsPc :
    (∃ t, exec (.jp 0xFFE) adds = .next t ∧ t.pc.toNat < 0xFFF) ∧ ∃ t, exec (.jp 0xFFF) adds = .next t ∧ 0xFFF ≤ t.pc.toNat :=
  ⟨⟨_, rfl, by decide⟩, ⟨_, rfl, by decide⟩⟩

/-- A skip that is taken and one that is not, of a machine that is not paused. -/
theorem witness_Skips : adds.paused = false ∧ (adds.reg 3).toNat = (0xFF : Byte).toNat ∧ (adds.reg 3).toNat ≠ (0xFE : Byte).toNat ∧
    (adds.reg 3).toNat ≠ (adds.reg 4).toNat ∧ (adds.reg 5).toNat = (adds.reg 4).toNat := by decide

/-- The two settings of the shift strap and the three flag modes. -/
theorem witness_Shifts :
    (strapped true .high8 adds).cfg.legacyShiftSource = true ∧ (strapped false .high8 adds).cfg.legacyShiftSource = false ∧
    (strapped true .high8 adds).cfg.shlFlag = .high8 ∧ (strapped true .bit3 adds).cfg.shlFlag = .bit3 ∧
    (strapped true .conv adds).cfg.shlFlag = .conv := by decide

/-- The highest `I` that fits, and the next. -/
theorem witness_BcdStoresThreeDigits :
    ({ State.reset with i := 0xFFD } : State).i.toNat + 2 ≤ 4095 ∧ 4095 < ({ State.reset with i := 0xFFE } : State).i.toNat + 2 := by
  decide

/-- The highest `I` that fits for X = 15, and the next. -/
theorem witness_StoreRegistersWritesTheBlock :
    ({ State.reset with i := 0xFF0 } : State).i.toNat + (15 : Nibble).toNat ≤ 4095 ∧
    4095 < ({ State.reset with i := 0xFF1 } : State).i.toNat + (15 : Nibble).toNat := by decide

/-- The highest `I` that fits for X = 0, and for X = 15 one too many. -/
theorem witness_LoadRegistersReadsTheBlock :
    ({ State.reset with i := 0xFFF } : State).i.toNat + (0 : Nibble).toNat ≤ 4095 ∧
    4095 < ({ State.reset with i := 0xFF1 } : State).i.toNat + (15 : Nibble).toNat := by decide

/-- P5 before its fourth step: FX55 with X = 1 at 0x206 and `I` = 0x208. -/
def overwrites : State := { withRegs [(0, 0x6A), (1, 0x77)] with pc := 0x206, i := 0x208 }.withWord 0xF155

theorem witness_LoadAfterStoreGivesTheRegistersBack :
    overwrites.i.toNat + (1 : Nibble).toNat ≤ 4095 ∧
    ∃ t u : State, exec (.stRegs 1) overwrites = .next t ∧ (∀ a, u.byte a = t.byte a) ∧ u.i = t.i ∧ u.v ≠ t.v :=
  ⟨by decide, _, { overwrites.writeBytes 0x208 [0x6A, 0x77] with v := State.reset.v }, rfl, fun _ => rfl, rfl, by decide⟩

/-- FX55 with X = 1 over the whole next word, over its first byte only, over its second byte only, and past it. -/
theorem witness_StoresReachTheNextFetch_stRegs :
    (∃ t, exec (.stRegs 1) overwrites = .next t ∧ t.pc.toNat ≤ 0xFFE ∧ t.pc.toNat = 0x208 + (0 : Nibble).toNat ∧
      t.pc.toNat + 1 = 0x208 + (1 : Nibble).toNat) ∧
    (∃ t, exec (.stRegs 1) { overwrites with i := 0x207 } = .next t ∧ t.pc.toNat = 0x207 + (1 : Nibble).toNat ∧
      0x207 + (1 : Nibble).toNat < t.pc.toNat + 1) ∧
    (∃ t, exec (.stRegs 1) { overwrites with i := 0x209 } = .next t ∧ t.pc.toNat < 0x209 ∧
      t.pc.toNat + 1 = 0x209 + (0 : Nibble).toNat) ∧
    ∃ t, exec (.stRegs 1) { overwrites with i := 0xFFE } = .next t ∧ 0xFFE + (1 : Nibble).toNat ≤ 4095 ∧
      t.pc.toNat + 1 < 0xFFE :=
  ⟨⟨_, rfl, by decide, by decide, by decide⟩, ⟨_, rfl, by decide, by decide⟩, ⟨_, rfl, by decide, by decide⟩,
    ⟨_, rfl, by decide, by decide⟩⟩

/-- FX33 with its block beginning one byte after `PC`, at it, one byte and two bytes before it, and past it. -/
theorem witness_StoresReachTheNextFetch_ldB :
    (∀ i ∈ ([0x206, 0x207, 0x208, 0x209, 0xFFD] : List Nat),
      ({ overwrites with i := BitVec.ofNat 16 i } : State).i.toNat + 2 ≤ 4095 ∧
      seen (exec (.ldB 0) { overwrites with i := BitVec.ofNat 16 i }) (·.pc) = some 0x208) ∧
    (0x208 : Word).toNat ≤ 0xFFE ∧ (0x208 : Word).toNat = 0x206 + 2 ∧ (0x208 : Word).toNat = 0x207 + 1 ∧
    (0x208 : Word).toNat + 1 = 0x209 ∧ (0x208 : Word).toNat + 1 < 0xFFD := by decide

/-- The store of FX33 over the next instruction, computed by hand: 0x6A is 106, so the word at 0x208 is 0x0100. -/
theorem test_store_then_fetch :
    seen (exec (.ldB 0) overwrites) (·.fetch) = some (some 0x0100) ∧
    seen (exec (.stRegs 1) { overwrites with i := 0x207 }) (·.fetch) = some (some 0x7700) := by decide

theorem witness_EqualBytesMeanEqualMemory :
    ({ cells := [(0x50, 1), (0x300, 2)] } : Memory).wf defaultGlyphTable ∧
    ∀ a, ({ cells := [(0x50, 1), (0x300, 2)] } : Memory).byte defaultGlyphTable a =
      ({ cells := [(0x50, 1), (0x300, 2)] } : Memory).byte defaultGlyphTable a :=
  ⟨by decide, fun _ => rfl⟩

/-- A sprite row of two pixels at the origin. -/
def draws : State := { State.reset with i := 0x300, mem := { cells := [(0x300, 0xC0)] } }

/-- No row at all with `I` at the top, the last two rows of the store, and one row too many. -/
theorem witness_DrawInvertsTheSpritesPixels_rows :
    (0 : Nibble).toNat = 0 ∧ ({ State.reset with i := 0xFFE } : State).i.toNat + (2 : Nibble).toNat - 1 ≤ 4095 ∧
    ((3 : Nibble).toNat ≠ 0 ∧ 4095 < ({ State.reset with i := 0xFFE } : State).i.toNat + (3 : Nibble).toNat - 1) := by decide

theorem witness_DrawInvertsTheSpritesPixels_covers : draws.spriteCovers 1 2 1 1 0 := ⟨0, 1, by decide, by decide, by decide, by decide, by decide⟩

theorem witness_DrawInvertsTheSpritesPixels_spares : ¬draws.spriteCovers 1 2 1 2 0 := by
  rintro ⟨row, col, hr, hc, hb, hx, hy⟩
  have hr : row = 0 := by simpa using hr
  subst hr
  have hx : col = 2 := by
    have : (draws.reg 1).toNat = 0 := by decide
    omega
  subst hx
  revert hb
  decide

theorem witness_DrawInvertsTheSpritesPixels_collides :
    ∃ px py, px < 64 ∧ py < 32 ∧ ({ draws with fb := (fbToggle fbClear 1 0).1 } : State).spriteCovers 1 2 1 px py ∧
      fbPixel ({ draws with fb := (fbToggle fbClear 1 0).1 } : State).fb px py = true :=
  ⟨1, 0, by decide, by decide, ⟨0, 1, by decide, by decide, by decide, by decide, by decide⟩, by decide⟩

theorem witness_DrawInvertsTheSpritesPixels_clean :
    ¬∃ px py, px < 64 ∧ py < 32 ∧ draws.spriteCovers 1 2 1 px py ∧ fbPixel draws.fb px py = true := by
  rintro ⟨px, py, -, -, -, h⟩
  simp [draws, State.reset, State.resetWith, fbPixel] at h

theorem witness_DrawingTwiceRestoresTheFrameBuffer :
    draws.fault = .none ∧ ∃ t u, exec (.drw 1 2 1) draws = .next t ∧ t.fault = .none ∧ t.reg 1 = draws.reg 1 ∧
      t.reg 2 = draws.reg 2 ∧ exec (.drw 1 2 1) t = .next u := ⟨by decide, _, _, rfl, by decide, by decide, by decide, rfl⟩

/-- The highest key number, and the next; a key that is down and one that is up. -/
theorem witness_KeySkipsReadOneKey :
    ((withRegs [(1, 15)]).reg 1).toNat < 16 ∧ 15 < ((withRegs [(1, 16)]).reg 1).toNat ∧
    (keysDown [15] (withRegs [(1, 15)])).keys[15] = true ∧ (withRegs [(1, 15)]).keys[15] = false := by decide

/-- The lowest of two keys that are down, the highest key alone, and no key at all. -/
theorem witness_KeyWaitTakesTheLeastKey :
    ((keysDown [9, 7] State.reset).keys[7] = true ∧ ∀ (j : Nat) (hj : j < 7), (keysDown [9, 7] State.reset).keys[j] = false) ∧
    ((keysDown [15] State.reset).keys[15] = true ∧ ∀ (j : Nat) (hj : j < 15), (keysDown [15] State.reset).keys[j] = false) ∧
    ∀ (k : Nat) (hk : k < 16), State.reset.keys[k] = false := by decide

theorem witness_KeyWaitRepeatsUntilAKey :
    (State.reset.withWord 0xF30A).fault = .none ∧ (State.reset.withWord 0xF30A).atKeyWait ∧
    ∀ (j : Nat) (hj : j < 16), (State.reset.withWord 0xF30A).keys[j] = false :=
  ⟨by decide, ⟨0xF30A, 3, by decide, by decide⟩, by decide⟩

theorem witness_ClearTurnsEveryPixelOff : decode 0x00E0 = .cls := by decide

theorem witness_TimerMovesCopyTheRegister : (∃ t, exec (.ldVxDt 3) adds = .next t) ∧ adds.fault = .none := ⟨⟨_, rfl⟩, by decide⟩

theorem witness_InstructionsRaiseExactlyByTheTable :
    (Instr.addImm 3 2).cause adds = .none ∧ Instr.ret.cause State.reset = .stackUnderflow ∧
    (Instr.call 0x200).cause { State.reset with stack := List.replicate 16 0x202 } = .stackOverflow ∧
    (Instr.drw 0 0 1).cause { State.reset with i := 0x1000 } = .memOutOfBounds ∧
    (Instr.drw 0 0 0).cause { State.reset with i := 0x1000 } = .none ∧
    (Instr.ldB 0).cause { State.reset with i := 0xFFE } = .memOutOfBounds ∧
    (Instr.stRegs 1).cause { State.reset with i := 0xFFF } = .memOutOfBounds ∧
    (Instr.ldRegs 0).cause { State.reset with i := 0xFFF } = .none ∧
    (Instr.skp 1).cause (withRegs [(1, 16)]) = .keyIndexOutOfRange ∧ (Instr.sknp 1).cause (withRegs [(1, 15)]) = .none := by
  decide

theorem witness_FaultsArePrecise_raise :
    raises.fault = .none ∧ ∃ t, step raises = .next t ∧ t.fault ≠ .none := ⟨by decide, _, rfl, by decide⟩

theorem witness_FaultsArePrecise_next :
    adds.fault = .none ∧ ∃ t, step adds = .next t ∧ t.fault = .none := ⟨by decide, _, rfl, by decide⟩

theorem witness_FrameOfEveryInstruction :
    (Instr.ldRegs 4).cause { State.reset with i := 0x50 } = .none ∧ (∃ t, exec (.ldRegs 4) { State.reset with i := 0x50 } = .next t) ∧
    (5 : Nibble) ∉ (Instr.ldRegs 4).destRegs ∧ (4 : Nibble) ∈ (Instr.ldRegs 4).destRegs := ⟨by decide, ⟨_, rfl⟩, by decide, by decide⟩

/-- The first and the last byte a block store reaches, and the bytes next to it. -/
theorem witness_FrameOfEveryInstruction_bytes :
    (Instr.stRegs 1).cause overwrites = .none ∧ (∃ t, exec (.stRegs 1) overwrites = .next t) ∧ 0x207 < overwrites.ea ∧
    overwrites.ea + (Instr.stRegs 1).accessLength ≤ 0x20A ∧ ¬overwrites.ea + (Instr.stRegs 1).accessLength ≤ 0x209 :=
  ⟨by decide, ⟨_, rfl⟩, by decide, by decide, by decide⟩

theorem witness_OnlyThreeInstructionsWriteI : ∃ t, exec (.ldF 0) State.reset = .next t ∧ t.i ≠ State.reset.i := ⟨_, rfl, by decide⟩

/-- A step that changes memory, one that changes the stack, one that changes the frame buffer. -/
theorem witness_StorageSpacesReachedOnlyByTheirInstructions :
    (∃ t, step overwrites = .next t ∧ t.mem ≠ overwrites.mem) ∧
    (∃ t, step (State.reset.withWord 0x2300) = .next t ∧ t.stack ≠ []) ∧
    ∃ t, step ({ draws with pc := 0x400 }.withWord 0xD121) = .next t ∧ t.fb ≠ draws.fb :=
  ⟨⟨_, rfl, by decide⟩, ⟨_, rfl, by decide⟩, ⟨_, rfl, by decide⟩⟩

/-- A step that reads neither the stack nor the frame buffer nor the keys. -/
theorem witness_StorageSpacesReachedOnlyByTheirInstructions_reads :
    (∃ t, step adds = .next t) ∧ adds.fetch = some 0x7302 ∧ (decode 0x7302 ≠ .ret ∧ ∀ nnn, decode 0x7302 ≠ .call nnn) ∧
    (decode 0x7302 ≠ .cls ∧ ∀ x y n, decode 0x7302 ≠ .drw x y n) ∧
    ∀ x, decode 0x7302 ≠ .skp x ∧ decode 0x7302 ≠ .sknp x ∧ decode 0x7302 ≠ .ldVxK x := by
  have word : decode 0x7302 = .addImm 3 2 := by decide
  exact ⟨⟨_, rfl⟩, by decide, by rw [word]; simp, by rw [word]; simp, by rw [word]; simp⟩

theorem witness_StepsNeverTouchKeysOrParameters : ∃ t, step adds = .next t := ⟨_, rfl⟩

theorem witness_SoundTimerAndRandomSourceAreUnread :
    (∃ t, exec (.rnd 1 0xFF) adds = .next t) ∧ (∀ x, Instr.rnd 1 0xFF ≠ .ldStVx x) ∧
    (∃ t, exec (.ldStVx 3) adds = .next t) ∧ ∀ x nn, Instr.ldStVx 3 ≠ .rnd x nn :=
  ⟨⟨_, rfl⟩, by simp, ⟨_, rfl⟩, by simp⟩

theorem witness_KeysAndStrapsAreReadOnlyByTheirInstructions :
    (∃ t, exec (.shr 3 3) adds = .next t) ∧ (∀ x, Instr.shr 3 3 ≠ .skp x ∧ Instr.shr 3 3 ≠ .sknp x ∧ Instr.shr 3 3 ≠ .ldVxK x) ∧
    (∃ t, exec (.skp 0) adds = .next t) ∧ ∀ x y, Instr.skp 0 ≠ .shr x y ∧ Instr.skp 0 ≠ .shl x y :=
  ⟨⟨_, rfl⟩, by simp, ⟨_, rfl⟩, by simp⟩

/-- T8 2, T8 3. -/
theorem witness_ProgramLoadCopiesTheImage :
    (List.replicate 3584 (0xAA : Byte)).length ≤ 3584 ∧ 3583 < (List.replicate 3584 (0xAA : Byte)).length ∧
    3584 < (List.replicate 3585 (0xAA : Byte)).length :=
  ⟨(List.length_replicate ..).le, (List.length_replicate ..).ge, (List.length_replicate ..).ge⟩

theorem witness_KeyWriteChangesOneKey : (0x10 : Byte) ≠ (0x0 : Nibble).setWidth 8 ∧ (0x1 : Byte) ≠ (0x0 : Nibble).setWidth 8 := by
  decide

/-- A paused machine at its FX0A, with a call behind it. -/
def waits : State := { State.reset with paused := true, stack := [0x1000] }.withWord 0xF30A

theorem witness_StepKeepsTheInvariant : waits.Inv ∧ ∃ t, step waits = .next t :=
  ⟨⟨by decide, by decide, fun t h => by cases List.mem_singleton.1 h; decide, by decide, fun _ => ⟨0xF30A, 3, by decide, by decide⟩⟩, _, rfl⟩

theorem witness_ReachableStatesSatisfyTheInvariant :
    Reachable builtConfig ((((State.resetWith builtConfig).load [0xF3, 0x0A]).keyWrite 0x7 true).hostReset.load [0x12, 0x00]) :=
  .again _ (.keyWrite _ _ (.boot _))

/-- A raise of every code, and a step that raises nothing. -/
theorem witness_FaultLatchHoldsTheCodeOfTheCause :
    [seen (step { State.reset with pc := 0xFFF }) (·.faultOut),
     seen (step ({ State.reset with i := 0x1000 }.withWord 0xD001)) (·.faultOut),
     seen (step ({ State.reset with i := 0xFFE }.withWord 0xF033)) (·.faultOut),
     seen (step ({ State.reset with i := 0xFFF }.withWord 0xF155)) (·.faultOut),
     seen (step ({ State.reset with i := 0xFFF }.withWord 0xF165)) (·.faultOut),
     seen (step (State.reset.withWord 0x00EE)) (·.faultOut),
     seen (step ({ State.reset with stack := List.replicate 16 0x202 }.withWord 0x2200)) (·.faultOut),
     seen (step ((withRegs [(1, 16)]).withWord 0xE19E)) (·.faultOut),
     seen (step ((withRegs [(1, 16)]).withWord 0xE1A1)) (·.faultOut), seen (step adds) (·.faultOut)] =
    [some 1, some 2, some 2, some 2, some 2, some 3, some 4, some 5, some 5, some 0] := by decide

end Sys2Proof.Tests
end

section
/-! What each meaning with more than one outcome can do, said once. -/

namespace Sys2Proof.Machine

variable (s : State)

/-- The `n` bytes from `I` upward. -/
def State.bytesAtI (n : Nat) : List Byte := (List.range n).map fun k => s.byte (s.i.toNat + k)

/-- The frame buffer and the collision DXYN computes (`45_display.md` R232). -/
def State.drawResult (x y n : Nibble) : FrameBuffer × Bool :=
  fbDraw s.fb (s.reg x).toNat (s.reg y).toNat (spriteBits (s.bytesAtI n.toNat))

theorem execRet_of_nil {s : State} (h : s.stack = []) : execRet s = .next { s with fault := .stackUnderflow } := by
  have hpop : s.advance.pop? = none := (State.pop?_eq_none _).2 (List.length_eq_zero_iff.2 h)
  unfold execRet
  rw [hpop]
  rfl

theorem execRet_of_append {s : State} {older : List Word} {top : Word} (h : s.stack = older ++ [top]) :
    execRet s = .next { s with stack := older, pc := top } := by
  have hpop : s.advance.pop? = some (top, { s.advance with stack := older }) := (State.pop?_eq_some _).2 ⟨h, rfl⟩
  unfold execRet
  rw [hpop]
  rfl

/-- Everything 00EE can do. -/
theorem execRet_cases :
    (∃ older top, s.stack = older ++ [top] ∧ execRet s = .next { s with stack := older, pc := top }) ∨
    (s.stack = [] ∧ execRet s = .next { s with fault := .stackUnderflow }) := by
  rcases List.eq_nil_or_concat' s.stack with hs | ⟨older, top, hs⟩
  · exact .inr ⟨hs, execRet_of_nil hs⟩
  · exact .inl ⟨older, top, hs, execRet_of_append hs⟩

theorem execCall_of_full {s : State} (h : s.sp = s.cfg.stackDepth) (nnn : Addr12) :
    execCall nnn s = .next { s with fault := .stackOverflow } := by
  have hpush : s.advance.push? s.advance.pc = none := (State.push?_eq_none s.advance).2 h
  unfold execCall
  rw [hpush]
  rfl

theorem execCall_of_room {s : State} (h : s.sp ≠ s.cfg.stackDepth) (nnn : Addr12) :
    execCall nnn s = .next { s with stack := s.stack ++ [s.nextPc], pc := absAddr nnn } := by
  have hpush : s.advance.push? s.advance.pc = some { s.advance with stack := s.stack ++ [s.nextPc] } :=
    (State.push?_eq_some s.advance).2 ⟨h, rfl⟩
  unfold execCall
  rw [hpush]
  rfl

/-- Everything 2NNN can do. -/
theorem execCall_cases (nnn : Addr12) :
    (s.sp ≠ s.cfg.stackDepth ∧
      execCall nnn s = .next { s with stack := s.stack ++ [s.nextPc], pc := absAddr nnn }) ∨
    (s.sp = s.cfg.stackDepth ∧ execCall nnn s = .next { s with fault := .stackOverflow }) := by
  by_cases h : s.sp = s.cfg.stackDepth
  · exact .inr ⟨h, execCall_of_full h nnn⟩
  · exact .inl ⟨h, execCall_of_room h nnn⟩

/-- Everything DXYN can do. -/
theorem execDrw_cases (x y n : Nibble) :
    ((n.toNat = 0 ∨ s.i.toNat + n.toNat ≤ memSize) ∧ execDrw x y n s =
      .next ((s.advance.setFb (s.drawResult x y n).1).setReg 0xF#4 (flagByte (s.drawResult x y n).2))) ∨
    (n.toNat ≠ 0 ∧ memSize < s.i.toNat + n.toNat ∧ execDrw x y n s = .next { s with fault := .memOutOfBounds }) := by
  unfold execDrw State.ea
  cases h : s.read? s.i.toNat n.toNat with
  | none => obtain ⟨h0, hi⟩ := State.read?_eq_none.1 h; exact .inr ⟨h0, hi, rfl⟩
  | some rows => obtain ⟨hi, rfl⟩ := State.read?_eq_some.1 h; exact .inl ⟨hi, rfl⟩

/-- Everything FX65 can do. -/
theorem execLdRegs_cases (x : Nibble) :
    (s.i.toNat + (x.toNat + 1) ≤ memSize ∧
      execLdRegs x s = .next (s.advance.setRegs (s.bytesAtI (x.toNat + 1)))) ∨
    (memSize < s.i.toNat + (x.toNat + 1) ∧ execLdRegs x s = .next { s with fault := .memOutOfBounds }) := by
  unfold execLdRegs State.ea
  cases h : s.read? s.i.toNat (x.toNat + 1) with
  | none => obtain ⟨-, hi⟩ := State.read?_eq_none.1 h; exact .inr ⟨hi, rfl⟩
  | some bs => obtain ⟨hi, rfl⟩ := State.read?_eq_some.1 h; exact .inl ⟨by omega, rfl⟩

/-- Everything EX9E can do. -/
theorem execSkp_cases (x : Nibble) :
    (∃ down, s.keyDown? (s.reg x) = some down ∧ execSkp x s = .next (s.advance.skipIf down)) ∨
    (15 < (s.reg x).toNat ∧ execSkp x s = .next { s with fault := .keyIndexOutOfRange }) := by
  unfold execSkp
  cases h : s.keyDown? (s.reg x) with
  | none => exact .inr ⟨(State.keyDown?_eq_none ..).1 h, rfl⟩
  | some down => exact .inl ⟨down, rfl, rfl⟩

/-- Everything EXA1 can do. -/
theorem execSknp_cases (x : Nibble) :
    (∃ down, s.keyDown? (s.reg x) = some down ∧ execSknp x s = .next (s.advance.skipIf (!down))) ∨
    (15 < (s.reg x).toNat ∧ execSknp x s = .next { s with fault := .keyIndexOutOfRange }) := by
  unfold execSknp
  cases h : s.keyDown? (s.reg x) with
  | none => exact .inr ⟨(State.keyDown?_eq_none ..).1 h, rfl⟩
  | some down => exact .inl ⟨down, rfl, rfl⟩

/-- Everything FX0A can do. -/
theorem execLdVxK_cases (x : Nibble) :
    (s.anyKey = none ∧ execLdVxK x s = .next { s with paused := true }) ∨
    (∃ k, s.anyKey = some k ∧
      execLdVxK x s = .next ({ s with paused := false, pc := s.pc + 2 }.setReg x (BitVec.ofNat 8 k))) := by
  unfold execLdVxK
  cases s.anyKey with
  | none => exact .inl ⟨rfl, rfl⟩
  | some k => exact .inr ⟨k, rfl, rfl⟩

end Sys2Proof.Machine
end

section
/-! The frame of every instruction and step on the fields of the state themselves, memory as data and not byte by byte. -/

namespace Sys2Proof.Machine

/-- From `s` to `t` a part is the same data. On all parts but registers and memory this is `State.agrees`. -/
def State.keeps (s t : State) : Part → Prop
  | .regs => t.v = s.v
  | .i => t.i = s.i
  | .pc => t.pc = s.pc
  | .dt => t.dt = s.dt
  | .st => t.st = s.st
  | .paused => t.paused = s.paused
  | .mem => t.mem = s.mem
  | .stack => t.stack = s.stack
  | .fb => t.fb = s.fb
  | .keys => t.keys = s.keys
  | .fault => t.fault = s.fault
  | .cfg => t.cfg = s.cfg
  | .draws => t.draws = s.draws

/-- From `s` to `t` every part not listed is the same data. -/
def State.keepsExcept (s : State) (changed : List Part) (t : State) : Prop := ∀ p, p ∉ changed → s.keeps t p

/-- Where the parameters are kept too, the same data means agreement in the sense of the frame rule (`00_scope.md` R11). -/
theorem State.keepsExcept.sameExcept {s t : State} {changed : List Part} (h : s.keepsExcept changed t)
    (hc : .cfg ∉ changed) : s.sameExcept changed t := by
  intro p hp
  cases p
  case regs => exact State.reg_congr (h .regs hp)
  case mem => exact State.byte_congr (h .mem hp) (h .cfg hc)
  all_goals exact h _ hp

theorem State.keepsExcept_refl (s : State) (changed : List Part) : s.keepsExcept changed s := by
  intro p _; cases p <;> rfl

section
variable {s t u : State} {l : List Part}

theorem State.keepsExcept.trans (hst : s.keepsExcept l t) (htu : t.keepsExcept l u) : s.keepsExcept l u := by
  intro p hp
  have h := hst p hp
  have h' := htu p hp
  cases p <;> exact h'.trans h

theorem State.keepsExcept.mono {m : List Part} (h : s.keepsExcept l t) (hlm : l ⊆ m) : s.keepsExcept m t :=
  fun p hp => h p fun hl => hp (hlm hl)

/-! Each update keeps every part but its own. -/

theorem State.keepsExcept_advance (hl : .pc ∈ l) : s.keepsExcept l s.advance := by
  intro p hp; cases p <;> simp_all [State.keeps]

theorem State.keepsExcept_jump (a : Word) (hl : .pc ∈ l) : s.keepsExcept l (s.jump a) := by
  intro p hp; cases p <;> simp_all [State.keeps]

theorem State.keepsExcept_skipIf (c : Bool) (hl : .pc ∈ l) : s.keepsExcept l (s.skipIf c) := by
  intro p hp; cases p <;> simp_all [State.keeps]

theorem State.keepsExcept_setReg (x : Nibble) (b : Byte) (hl : .regs ∈ l) : s.keepsExcept l (s.setReg x b) := by
  intro p hp; cases p <;> simp_all [State.keeps]

theorem State.keepsExcept_setRegs (bs : List Byte) (hl : .regs ∈ l) : s.keepsExcept l (s.setRegs bs) := by
  intro p hp; cases p <;> simp_all [State.keeps]

theorem State.keepsExcept_setResultFlag (x : Nibble) (r g : Byte) (hl : .regs ∈ l) :
    s.keepsExcept l (s.setResultFlag x r g) :=
  (State.keepsExcept_setReg x r hl).trans (State.keepsExcept_setReg 0xF#4 g hl)

theorem State.keepsExcept_setI (w : Word) (hl : .i ∈ l) : s.keepsExcept l (s.setI w) := by
  intro p hp; cases p <;> simp_all [State.keeps]

theorem State.keepsExcept_setFb (fb : FrameBuffer) (hl : .fb ∈ l) : s.keepsExcept l (s.setFb fb) := by
  intro p hp; cases p <;> simp_all [State.keeps]

theorem State.keepsExcept_drawn (hl : .draws ∈ l) : s.keepsExcept l s.drawn := by
  intro p hp; cases p <;> simp_all [State.keeps]

theorem State.keepsExcept_writeBytes (a : Nat) (bs : List Byte) (hl : .mem ∈ l) : s.keepsExcept l (s.writeBytes a bs) := by
  intro p hp; cases p <;> simp_all [State.keeps]

theorem State.keepsExcept_withFault (c : Cause) (hl : .fault ∈ l) : s.keepsExcept l { s with fault := c } := by
  intro p hp; cases p <;> simp_all [State.keeps]

theorem State.keepsExcept_finish (hdt : .dt ∈ l) (hst : .st ∈ l) : s.keepsExcept l s.finish := by
  intro p hp; cases p <;> simp_all [State.keeps]

theorem State.keepsExcept_keyWrite (k : Nibble) (down : Bool) (hl : .keys ∈ l) : s.keepsExcept l (s.keyWrite k down) := by
  intro p hp; cases p <;> simp_all [State.keeps]

theorem State.keepsExcept_storeAtI {bs : List Byte} (h : s.storeAtI bs = .next t) (hf : .fault ∈ l) (hpc : .pc ∈ l)
    (hm : .mem ∈ l) : s.keepsExcept l t := by
  rcases s.storeAtI_cases bs with ⟨-, he⟩ | ⟨-, -, he⟩ <;> cases he.symm.trans h
  · exact (State.keepsExcept_writeBytes _ bs hm).trans (State.keepsExcept_advance hpc)
  · exact State.keepsExcept_withFault _ hf

end

theorem pc_mem_writes (i : Instr) : .pc ∈ i.writes := by cases i <;> simp [Instr.writes]

/-- An instruction keeps, as data, every part its rule does not write, the fault latch aside; a raise writes only that. -/
theorem exec_keepsExcept {i : Instr} {s t : State} (h : exec i s = .next t) : s.keepsExcept (.fault :: i.writes) t := by
  have hpc : .pc ∈ .fault :: i.writes := List.mem_cons_of_mem _ (pc_mem_writes i)
  have adv : s.keepsExcept (.fault :: i.writes) s.advance := State.keepsExcept_advance hpc
  have skip (c : Bool) : s.keepsExcept (.fault :: i.writes) (s.advance.skipIf c) :=
    adv.trans (State.keepsExcept_skipIf c hpc)
  have raise (c : Cause) : s.keepsExcept (.fault :: i.writes) { s with fault := c } :=
    State.keepsExcept_withFault c List.mem_cons_self
  cases i
  case sys | nop8 | nopE | nopF => cases h; exact adv
  case jp | jpV0 => cases h; exact adv.trans (State.keepsExcept_jump _ hpc)
  case seImm | sneImm | seReg | sneReg => cases h; exact skip _
  case ldImm | addImm | ldReg | or | and | xor | ldVxDt =>
    cases h; exact adv.trans (State.keepsExcept_setReg _ _ (by simp [Instr.writes]))
  case addReg | sub | shr | subn | shl =>
    cases h; exact adv.trans (State.keepsExcept_setResultFlag _ _ _ (by simp [Instr.writes]))
  case rnd =>
    cases h
    exact (adv.trans (State.keepsExcept_drawn (by simp [Instr.writes]))).trans
      (State.keepsExcept_setReg _ _ (by simp [Instr.writes]))
  case ldI | addI | ldF => cases h; exact adv.trans (State.keepsExcept_setI _ (by simp [Instr.writes]))
  case cls => cases h; exact adv.trans (State.keepsExcept_setFb _ (by simp [Instr.writes]))
  case ldDtVx | ldStVx => cases h; intro p hp; cases p <;> simp_all [State.keeps, Instr.writes]
  case ldB | stRegs => exact State.keepsExcept_storeAtI h (by simp) hpc (by simp [Instr.writes])
  case ret =>
    rcases execRet_cases s with ⟨older, top, -, he⟩ | ⟨-, he⟩ <;> cases he.symm.trans h
    · intro p hp; cases p <;> simp_all [State.keeps, Instr.writes]
    · exact raise _
  case call nnn =>
    rcases execCall_cases s nnn with ⟨-, he⟩ | ⟨-, he⟩ <;> cases he.symm.trans h
    · intro p hp; cases p <;> simp_all [State.keeps, Instr.writes]
    · exact raise _
  case drw x y n =>
    rcases execDrw_cases s x y n with ⟨-, he⟩ | ⟨-, -, he⟩ <;> cases he.symm.trans h
    · exact (adv.trans (State.keepsExcept_setFb _ (by simp [Instr.writes]))).trans
        (State.keepsExcept_setReg _ _ (by simp [Instr.writes]))
    · exact raise _
  case ldRegs x =>
    rcases execLdRegs_cases s x with ⟨-, he⟩ | ⟨-, he⟩ <;> cases he.symm.trans h
    · exact adv.trans (State.keepsExcept_setRegs _ (by simp [Instr.writes]))
    · exact raise _
  case skp x =>
    rcases execSkp_cases s x with ⟨down, -, he⟩ | ⟨-, he⟩ <;> cases he.symm.trans h
    · exact skip _
    · exact raise _
  case sknp x =>
    rcases execSknp_cases s x with ⟨down, -, he⟩ | ⟨-, he⟩ <;> cases he.symm.trans h
    · exact skip _
    · exact raise _
  case ldVxK x =>
    rcases execLdVxK_cases s x with ⟨-, he⟩ | ⟨k, -, he⟩ <;> cases he.symm.trans h
    · intro p hp; cases p <;> simp_all [State.keeps, Instr.writes]
    · intro p hp; cases p <;> simp_all [State.keeps, Instr.writes]

/-- A part an instruction changed is one its rule writes, or the fault latch. -/
theorem mem_writes_of_exec {i : Instr} {s t : State} {p : Part} (h : exec i s = .next t) (hp : p ≠ .fault)
    (hk : ¬ s.keeps t p) : p ∈ i.writes := by
  by_contra hn
  exact hk (exec_keepsExcept h p (by simp [hp, hn]))

/-- A step with no word to fetch. -/
theorem step_eq_of_fetch_eq_none {s : State} (hf : s.fault = .none) (hnone : s.fetch = none) :
    step s = .next { s with fault := .fetchOutOfBounds } := by simp [step, hf, hnone]

/-- A step keeps, as data, every part but the latch, the timers, and those the rule of the fetched instruction writes. -/
theorem step_keepsExcept {s t : State} {iw : Word} (h : step s = .next t) (hiw : s.fetch = some iw) :
    s.keepsExcept ([.fault, .dt, .st] ++ (decode iw).writes) t := by
  rcases step_cases h with ⟨-, rfl⟩ | ⟨-, hnone, -⟩ | ⟨iw', u, -, hiw', hu, rfl⟩
  · exact State.keepsExcept_refl _ _
  · cases hnone.symm.trans hiw
  · cases hiw.symm.trans hiw'
    have hexec := (exec_keepsExcept hu).mono (List.cons_subset_cons .fault
      (List.subset_append_right [.dt, .st] (decode iw).writes))
    exact hexec.trans (State.keepsExcept_finish (by simp) (by simp))

/-- A step with no word to fetch keeps everything but the latch. -/
theorem step_keepsExcept_of_fetch_eq_none {s t : State} (h : step s = .next t) (hnone : s.fetch = none) :
    s.keepsExcept [.fault] t := by
  rcases step_cases h with ⟨-, rfl⟩ | ⟨-, -, rfl⟩ | ⟨iw, u, -, hiw, -, -⟩
  · exact State.keepsExcept_refl _ _
  · exact State.keepsExcept_withFault _ (by simp)
  · cases hnone.symm.trans hiw

/-- A part a step changed, the latch and the timers aside, is one the rule of the fetched instruction writes. -/
theorem mem_writes_of_step {s t : State} {p : Part} (h : step s = .next t) (hp : p ∉ [.fault, .dt, .st])
    (hk : ¬ s.keeps t p) : ∃ iw, s.fetch = some iw ∧ p ∈ (decode iw).writes := by
  cases hiw : s.fetch with
  | none => exact absurd (step_keepsExcept_of_fetch_eq_none h hiw p (by simp_all)) hk
  | some iw =>
    refine ⟨iw, rfl, by_contra fun hn => hk (step_keepsExcept h hiw p ?_)⟩
    rw [List.mem_append]
    exact not_or.2 ⟨hp, hn⟩

/-! Which instructions write a part. -/

theorem i_mem_writes {i : Instr} : .i ∈ i.writes ↔ (∃ nnn, i = .ldI nnn) ∨ (∃ x, i = .addI x) ∨ ∃ x, i = .ldF x := by
  cases i <;> simp [Instr.writes]

theorem mem_mem_writes {i : Instr} : .mem ∈ i.writes ↔ ∃ x, i = .ldB x ∨ i = .stRegs x := by
  cases i <;> simp [Instr.writes]

theorem stack_mem_writes {i : Instr} : .stack ∈ i.writes ↔ i = .ret ∨ ∃ nnn, i = .call nnn := by
  cases i <;> simp [Instr.writes]

theorem fb_mem_writes {i : Instr} : .fb ∈ i.writes ↔ i = .cls ∨ ∃ x y n, i = .drw x y n := by
  cases i <;> simp [Instr.writes]

theorem paused_mem_writes {i : Instr} : .paused ∈ i.writes ↔ ∃ x, i = .ldVxK x := by
  cases i <;> simp [Instr.writes]

theorem keys_notMem_writes (i : Instr) : .keys ∉ i.writes := by cases i <;> simp [Instr.writes]

theorem cfg_notMem_writes (i : Instr) : .cfg ∉ i.writes := by cases i <;> simp [Instr.writes]

theorem exec_cfg {i : Instr} {s t : State} (h : exec i s = .next t) : t.cfg = s.cfg :=
  exec_keepsExcept h .cfg (by simp [cfg_notMem_writes])

theorem step_cfg {s t : State} (h : step s = .next t) : t.cfg = s.cfg := by
  by_contra hk
  obtain ⟨iw, -, hw⟩ := mem_writes_of_step (p := .cfg) h (by decide) hk
  exact cfg_notMem_writes _ hw

theorem step_keys {s t : State} (h : step s = .next t) : t.keys = s.keys := by
  by_contra hk
  obtain ⟨iw, -, hw⟩ := mem_writes_of_step (p := .keys) h (by decide) hk
  exact keys_notMem_writes _ hw

/-! The bytes of memory a store can reach. -/

theorem accessLength_le (i : Instr) : i.accessLength ≤ 16 := by
  cases i
  case drw x y n => exact n.isLt.le
  case stRegs x | ldRegs x => exact x.isLt
  all_goals simp [Instr.accessLength]

theorem byte_of_storeAtI {s t : State} {bs : List Byte} (h : s.storeAtI bs = .next t) {a : Nat}
    (ha : a < s.ea ∨ s.ea + bs.length ≤ a) : t.byte a = s.byte a := by
  rcases s.storeAtI_cases bs with ⟨-, he⟩ | ⟨-, -, he⟩ <;> cases he.symm.trans h
  · rw [State.byte_advance, State.byte_writeBytes, if_neg]
    unfold State.ea at ha
    omega
  · rfl

/-- An instruction changes no byte of memory but those from `I` upward that it accesses, raise or not. -/
theorem exec_byte {i : Instr} {s t : State} (h : exec i s = .next t) {a : Nat}
    (ha : a < s.ea ∨ s.ea + i.accessLength ≤ a) : t.byte a = s.byte a := by
  by_cases hm : .mem ∈ i.writes
  · obtain ⟨x, rfl | rfl⟩ := mem_mem_writes.1 hm
    · exact byte_of_storeAtI (bs := bcdDigits (s.reg x)) h ha
    · exact byte_of_storeAtI (bs := s.regsThrough x) h (by rwa [State.length_regsThrough])
  · exact State.byte_congr (exec_keepsExcept h .mem (by simp [hm])) (exec_cfg h) a

theorem step_byte {s t : State} (h : step s = .next t) {a : Nat} (ha : a < s.i.toNat ∨ s.i.toNat + 16 ≤ a) :
    t.byte a = s.byte a := by
  rcases step_cases h with ⟨-, rfl⟩ | ⟨-, -, rfl⟩ | ⟨iw, u, -, -, hu, rfl⟩
  · rfl
  · rfl
  · have := accessLength_le (decode iw)
    rw [State.byte_finish, exec_byte hu (by unfold State.ea; omega)]

/-- Settles O48: by the frame of every instruction. -/
theorem onlyThreeInstructionsWriteI : Obligations.OnlyThreeInstructionsWriteI :=
  fun _ _ _ h hi => i_mem_writes.1 (mem_writes_of_exec (p := .i) h (by decide) hi)

/-- Settles O50: by the frame of every step. -/
theorem stepsNeverTouchKeysOrParameters : Obligations.StepsNeverTouchKeysOrParameters :=
  fun _ _ h => ⟨step_keys h, step_cfg h⟩

end Sys2Proof.Machine
end

section
/-! Non-interference: an instruction that does not reach a space runs the same whatever the space holds
(`10_state.md` R28, R31, R39; `40_step_cycle.md` R132). -/

namespace Sys2Proof.Machine

/-- Other contents for one of the spaces that only a few instructions reach. -/
inductive Override where
  | stack (stack : List Word)
  | fb (fb : FrameBuffer)
  | keys (keys : Vector Bool 16)
  | st (b : Byte)
  | draws (d : Nat)
  | straps (legacyShiftSource : Bool) (shlFlag : ShlFlag)

/-- The state with the other contents in place. -/
def State.override (s : State) : Override → State
  | .stack k => { s with stack := k }
  | .fb fb => { s with fb := fb }
  | .keys keys => { s with keys := keys }
  | .st b => { s with st := b }
  | .draws d => { s with draws := d }
  | .straps b m => { s with cfg := { s.cfg with legacyShiftSource := b, shlFlag := m } }

/-- The instructions that reach the space. -/
def Override.reachedBy : Override → Instr → Prop
  | .stack _, i => i = .ret ∨ ∃ nnn, i = .call nnn
  | .fb _, i => i = .cls ∨ ∃ x y n, i = .drw x y n
  | .keys _, i => ∃ x, i = .skp x ∨ i = .sknp x ∨ i = .ldVxK x
  | .st _, i => ∃ x, i = .ldStVx x
  | .draws _, i => ∃ x nn, i = .rnd x nn
  | .straps _ _, i => ∃ x y, i = .shr x y ∨ i = .shl x y

/-- The outcome with `f` applied to a next state. -/
def mapNext (f : State → State) : Host.Outcome State Fault Refusal → Host.Outcome State Fault Refusal
  | .next t => .next (f t)
  | .fault r => .fault r
  | .refused r => .refused r

section
variable (s : State) (o : Override)

/-! What every instruction may read is the same. -/

@[simp] theorem State.fault_override : (s.override o).fault = s.fault := by cases o <;> rfl
@[simp] theorem State.fetch_override : (s.override o).fetch = s.fetch := by cases o <;> rfl
@[simp] theorem State.ea_override : (s.override o).ea = s.ea := by cases o <;> rfl
@[simp] theorem State.reg_override (x : Nibble) : (s.override o).reg x = s.reg x := by cases o <;> rfl
@[simp] theorem State.regsThrough_override (x : Nibble) : (s.override o).regsThrough x = s.regsThrough x := by
  cases o <;> rfl
@[simp] theorem State.read?_override (a n : Nat) : (s.override o).read? a n = s.read? a n := by cases o <;> rfl

variable {o}

/-! A space is the same under an override of another one. -/

theorem State.stack_override (ho : ∀ k, o ≠ .stack k) : (s.override o).stack = s.stack := by
  cases o
  case stack k => exact absurd rfl (ho k)
  all_goals rfl

theorem State.fb_override (ho : ∀ fb, o ≠ .fb fb) : (s.override o).fb = s.fb := by
  cases o
  case fb fb => exact absurd rfl (ho fb)
  all_goals rfl

theorem State.keys_override (ho : ∀ k, o ≠ .keys k) : (s.override o).keys = s.keys := by
  cases o
  case keys k => exact absurd rfl (ho k)
  all_goals rfl

/-! Each shared operation, and each meaning with more than one outcome, leaves the other contents in place. -/

theorem advance_skipIf_override (c : Bool) :
    Host.Outcome.next ((s.override o).advance.skipIf c) = mapNext (·.override o) (.next (s.advance.skipIf c)) := by
  cases c <;> cases o <;> rfl

theorem State.storeAtI_override (bs : List Byte) :
    (s.override o).storeAtI bs = mapNext (·.override o) (s.storeAtI bs) := by
  unfold State.storeAtI State.write?
  rw [State.ea_override]
  cases inStore s.ea bs.length <;> cases o <;> rfl

theorem execRet_override (ho : ∀ k, o ≠ .stack k) :
    execRet (s.override o) = mapNext (·.override o) (execRet s) := by
  have hk := s.stack_override ho
  rcases List.eq_nil_or_concat' s.stack with hs | ⟨older, top, hs⟩
  · rw [execRet_of_nil hs, execRet_of_nil (hk.trans hs)]
    cases o <;> rfl
  · rw [execRet_of_append hs, execRet_of_append (hk.trans hs)]
    cases o
    case stack k => exact absurd rfl (ho k)
    all_goals rfl

theorem execCall_override (ho : ∀ k, o ≠ .stack k) (nnn : Addr12) :
    execCall nnn (s.override o) = mapNext (·.override o) (execCall nnn s) := by
  have hfull : (s.override o).sp = (s.override o).cfg.stackDepth ↔ s.sp = s.cfg.stackDepth := by
    cases o
    case stack k => exact absurd rfl (ho k)
    all_goals exact Iff.rfl
  by_cases h : s.sp = s.cfg.stackDepth
  · rw [execCall_of_full h, execCall_of_full (hfull.2 h)]
    cases o <;> rfl
  · rw [execCall_of_room h, execCall_of_room (mt hfull.1 h)]
    cases o
    case stack k => exact absurd rfl (ho k)
    all_goals rfl

theorem execDrw_override (ho : ∀ fb, o ≠ .fb fb) (x y n : Nibble) :
    execDrw x y n (s.override o) = mapNext (·.override o) (execDrw x y n s) := by
  unfold execDrw
  rw [State.ea_override, State.read?_override, State.fb_override s ho]
  cases s.read? s.ea n.toNat with
  | none => cases o <;> rfl
  | some rows =>
    cases o
    case fb fb => exact absurd rfl (ho fb)
    all_goals rfl

theorem execLdRegs_override (x : Nibble) :
    execLdRegs x (s.override o) = mapNext (·.override o) (execLdRegs x s) := by
  unfold execLdRegs
  rw [State.ea_override, State.read?_override]
  cases s.read? s.ea (x.toNat + 1) <;> cases o <;> rfl

theorem State.keyDown?_override (ho : ∀ k, o ≠ .keys k) (b : Byte) : (s.override o).keyDown? b = s.keyDown? b := by
  unfold State.keyDown?
  rw [State.keys_override s ho]

theorem execSkp_override (ho : ∀ k, o ≠ .keys k) (x : Nibble) :
    execSkp x (s.override o) = mapNext (·.override o) (execSkp x s) := by
  unfold execSkp
  rw [State.reg_override, State.keyDown?_override s ho]
  cases s.keyDown? (s.reg x) with
  | none => cases o <;> rfl
  | some down => exact advance_skipIf_override s down

theorem execSknp_override (ho : ∀ k, o ≠ .keys k) (x : Nibble) :
    execSknp x (s.override o) = mapNext (·.override o) (execSknp x s) := by
  unfold execSknp
  rw [State.reg_override, State.keyDown?_override s ho]
  cases s.keyDown? (s.reg x) with
  | none => cases o <;> rfl
  | some down => exact advance_skipIf_override s !down

theorem execLdVxK_override (ho : ∀ k, o ≠ .keys k) (x : Nibble) :
    execLdVxK x (s.override o) = mapNext (·.override o) (execLdVxK x s) := by
  have hany : (s.override o).anyKey = s.anyKey := by unfold State.anyKey; rw [State.keys_override s ho]
  unfold execLdVxK
  rw [hany]
  cases s.anyKey <;> cases o <;> rfl

/-- An instruction that does not reach a space runs the same whatever the space holds, and leaves it so. -/
theorem exec_override {i : Instr} (ho : ¬ o.reachedBy i) : exec i (s.override o) = mapNext (·.override o) (exec i s) := by
  cases i
  case ret => exact execRet_override s (by rintro k rfl; exact ho (.inl rfl))
  case call nnn => exact execCall_override s (by rintro k rfl; exact ho (.inr ⟨nnn, rfl⟩)) nnn
  case drw x y n => exact execDrw_override s (by rintro fb rfl; exact ho (.inr ⟨x, y, n, rfl⟩)) x y n
  case skp x => exact execSkp_override s (by rintro k rfl; exact ho ⟨x, .inl rfl⟩) x
  case sknp x => exact execSknp_override s (by rintro k rfl; exact ho ⟨x, .inr (.inl rfl)⟩) x
  case ldVxK x => exact execLdVxK_override s (by rintro k rfl; exact ho ⟨x, .inr (.inr rfl)⟩) x
  case cls | ldStVx | rnd | shr | shl => cases o <;> simp [Override.reachedBy] at ho <;> rfl
  case seImm | sneImm | seReg | sneReg => cases o <;> exact advance_skipIf_override s _
  case ldB x => exact (congrArg _ (congrArg bcdDigits (s.reg_override o x))).trans (s.storeAtI_override _)
  case stRegs x => exact (congrArg _ (s.regsThrough_override o x)).trans (s.storeAtI_override _)
  case ldRegs x => exact execLdRegs_override s x
  -- The instructions with one outcome that reach no space: for each space both sides are the same state.
  all_goals cases o <;> rfl

theorem exec_override_of_next {i : Instr} {t : State} (ho : ¬ o.reachedBy i) (h : exec i s = .next t) :
    exec i (s.override o) = .next (t.override o) := by
  rw [exec_override s ho, h]
  rfl

theorem State.finish_override (hst : ∀ b, o ≠ .st b) : (s.override o).finish = s.finish.override o := by
  unfold State.finish
  rw [State.fault_override]
  split
  · cases o
    case st b => exact absurd rfl (hst b)
    all_goals rfl
  · rfl

/-- A step of an instruction that does not reach a space is the same whatever the space holds; `ST` aside, which decays. -/
theorem step_override {t : State} (hst : ∀ b, o ≠ .st b) (ho : ∀ iw, s.fetch = some iw → ¬ o.reachedBy (decode iw))
    (h : step s = .next t) : step (s.override o) = .next (t.override o) := by
  rcases step_cases h with ⟨hf, rfl⟩ | ⟨hf, hnone, rfl⟩ | ⟨iw, u, hf, hiw, hu, rfl⟩
  · exact step_eq_of_fault (by rwa [State.fault_override])
  · rw [step_eq_of_fetch_eq_none ((s.fault_override o).trans hf) ((s.fetch_override o).trans hnone)]
    cases o <;> rfl
  · rw [step_eq_of_fetch ((s.fault_override o).trans hf) ((s.fetch_override o).trans hiw)
      (exec_override_of_next s (ho iw hiw) hu), State.finish_override u hst]

end

/-- The two shifts do not depend on `LEGACY_SHIFT_SOURCE` where X and Y name one register (`70_reset_and_hazards.md` R326). -/
theorem State.shiftSource_self (s : State) (x : Nibble) : s.shiftSource x x = s.reg x := ite_self _

/-- Settles O49: what a step writes by its frame, what it reads by non-interference. -/
theorem storageSpacesReachedOnlyByTheirInstructions : Obligations.StorageSpacesReachedOnlyByTheirInstructions := by
  intro s t h
  refine ⟨fun hm => ?_, fun a ha => step_byte h ha, fun hs => ?_, fun hfb => ?_, step_keys h, fun k hk => ?_, fun fb hfb => ?_,
    fun keys hkeys => ?_⟩
  · obtain ⟨iw, hiw, hw⟩ := mem_writes_of_step (p := .mem) h (by decide) hm
    obtain ⟨x, hx⟩ := mem_mem_writes.1 hw
    exact ⟨iw, x, hiw, hx⟩
  · obtain ⟨iw, hiw, hw⟩ := mem_writes_of_step (p := .stack) h (by decide) hs
    exact ⟨iw, hiw, stack_mem_writes.1 hw⟩
  · obtain ⟨iw, hiw, hw⟩ := mem_writes_of_step (p := .fb) h (by decide) hfb
    exact ⟨iw, hiw, fb_mem_writes.1 hw⟩
  · refine step_override (o := .stack k) s (by simp) (fun iw hiw hr => ?_) h
    obtain ⟨hret, hcall⟩ := hk iw hiw
    exact hr.elim hret fun ⟨nnn, hn⟩ => hcall nnn hn
  · refine step_override (o := .fb fb) s (by simp) (fun iw hiw hr => ?_) h
    obtain ⟨hcls, hdrw⟩ := hfb iw hiw
    exact hr.elim hcls fun ⟨x, y, n, hn⟩ => hdrw x y n hn
  · refine step_override (o := .keys keys) s (by simp) (fun iw hiw ⟨x, hr⟩ => ?_) h
    obtain ⟨hskp, hsknp, hldk⟩ := hkeys iw x hiw
    exact hr.elim hskp fun hr => hr.elim hsknp hldk

/-- Settles O51: by non-interference for `ST` and for the draw count. -/
theorem soundTimerAndRandomSourceAreUnread : Obligations.SoundTimerAndRandomSourceAreUnread := by
  intro i s t h
  refine ⟨fun b hi => ?_, fun d hi => ?_⟩
  · exact exec_override_of_next (o := .st b) s (fun ⟨x, hx⟩ => hi x hx) h
  · exact exec_override_of_next (o := .draws d) s (fun ⟨x, nn, hx⟩ => hi x nn hx) h

/-- A shift of one register onto itself does not depend on `LEGACY_SHIFT_SOURCE`, the flag mode kept. -/
theorem exec_legacyShiftSource {i : Instr} {s t : State} {x : Nibble} (hi : i = .shr x x ∨ i = .shl x x)
    (h : exec i s = .next t) (b : Bool) :
    exec i { s with cfg := { s.cfg with legacyShiftSource := b } } =
      .next { t with cfg := { s.cfg with legacyShiftSource := b } } := by
  rcases hi with rfl | rfl <;> cases h
  · simp only [exec, execShr, State.shiftSource_self]
    rfl
  · simp only [exec, execShl, State.shiftSource_self]
    rfl

/-- Settles O52: by non-interference for the keys and for the straps, and by the shift source of one register. -/
theorem keysAndStrapsAreReadOnlyByTheirInstructions : Obligations.KeysAndStrapsAreReadOnlyByTheirInstructions := by
  intro i s t h
  refine ⟨fun keys hi => ?_, fun b m hi => ?_, fun b x hi => exec_legacyShiftSource hi h b⟩
  · refine exec_override_of_next (o := .keys keys) s (fun ⟨x, hr⟩ => ?_) h
    obtain ⟨hskp, hsknp, hldk⟩ := hi x
    exact hr.elim hskp fun hr => hr.elim hsknp hldk
  · have ht : t.override (.straps b m) = { t with cfg := { s.cfg with legacyShiftSource := b, shlFlag := m } } := by
      rw [← exec_cfg h]; rfl
    rw [← ht]
    refine exec_override_of_next (o := .straps b m) s (fun ⟨x, y, hr⟩ => ?_) h
    obtain ⟨hshr, hshl⟩ := hi x y
    exact hr.elim hshr hshl

end Sys2Proof.Machine
end

section
/-! The invariant: every step and every host operation keeps it (`10_state.md` R26; `40_step_cycle.md` R125). -/

namespace Sys2Proof.Machine

/-! ## Where an instruction leaves `PC` -/

theorem toNat_add_two {a : Word} {n : Nat} (h : a.toNat ≤ n) : (a + 2).toNat ≤ n + 2 := by
  rw [BitVec.toNat_add]
  exact (Nat.mod_le _ _).trans (Nat.add_le_add_right h 2)

theorem State.nextPc_le {s : State} {n : Nat} (h : s.pc.toNat ≤ n) : s.nextPc.toNat ≤ n + 2 := by
  unfold State.nextPc
  split
  · exact h.trans (Nat.le_add_right n 2)
  · exact toNat_add_two h

theorem absAddr_toNat (nnn : Addr12) : (absAddr nnn).toNat = nnn.toNat := by
  simp [absAddr]; omega

theorem absAddr_le (nnn : Addr12) : (absAddr nnn).toNat ≤ 0xFFF := by
  have := nnn.isLt
  rw [absAddr_toNat]
  omega

theorem State.offsetTarget_le (s : State) (nnn : Addr12) : (s.offsetTarget nnn).toNat ≤ 0x10FE := by
  have hreg := (s.reg 0#4).isLt
  have habs := absAddr_le nnn
  unfold State.offsetTarget
  rw [BitVec.toNat_add, BitVec.toNat_setWidth]
  omega

theorem State.storeAtI_pc {s t : State} {bs : List Byte} (h : s.storeAtI bs = .next t) :
    t.pc = s.nextPc ∨ t.pc = s.pc := by
  rcases s.storeAtI_cases bs with ⟨-, he⟩ | ⟨-, -, he⟩ <;> cases he.symm.trans h
  · exact .inl rfl
  · exact .inr rfl

/-- The bound on `PC` (derived in `10_state.md` R26): the largest target is that of BNNN. -/
theorem exec_pc_le {i : Instr} {s t : State} (h : exec i s = .next t) (hpc : s.pc.toNat ≤ 0xFFE)
    (hret : ∀ a ∈ s.stack, a.toNat ≤ 0x1000) : t.pc.toNat ≤ 0x10FE := by
  have here : s.pc.toNat ≤ 0x10FE := hpc.trans (by decide)
  have next : s.nextPc.toNat ≤ 0x10FE := (State.nextPc_le hpc).trans (by decide)
  have skip (c : Bool) : (s.advance.skipIf c).pc.toNat ≤ 0x10FE := by
    rw [State.skipIf_pc]
    split
    · exact (toNat_add_two (State.nextPc_le hpc)).trans (by decide)
    · exact next
  cases i
  case jp nnn => cases h; exact (absAddr_le nnn).trans (by decide)
  case jpV0 nnn => cases h; exact s.offsetTarget_le nnn
  case seImm | sneImm | seReg | sneReg => cases h; exact skip _
  case ret =>
    rcases execRet_cases s with ⟨older, top, hs, he⟩ | ⟨-, he⟩ <;> cases he.symm.trans h
    · exact (hret top (by simp [hs])).trans (by decide)
    · exact here
  case call nnn =>
    rcases execCall_cases s nnn with ⟨-, he⟩ | ⟨-, he⟩ <;> cases he.symm.trans h
    · exact (absAddr_le nnn).trans (by decide)
    · exact here
  case drw x y n =>
    rcases execDrw_cases s x y n with ⟨-, he⟩ | ⟨-, -, he⟩ <;> cases he.symm.trans h
    · exact next
    · exact here
  case ldRegs x =>
    rcases execLdRegs_cases s x with ⟨-, he⟩ | ⟨-, he⟩ <;> cases he.symm.trans h
    · exact next
    · exact here
  case skp x =>
    rcases execSkp_cases s x with ⟨down, -, he⟩ | ⟨-, he⟩ <;> cases he.symm.trans h
    · exact skip down
    · exact here
  case sknp x =>
    rcases execSknp_cases s x with ⟨down, -, he⟩ | ⟨-, he⟩ <;> cases he.symm.trans h
    · exact skip !down
    · exact here
  case ldVxK x =>
    rcases execLdVxK_cases s x with ⟨-, he⟩ | ⟨k, -, he⟩ <;> cases he.symm.trans h
    · exact here
    · exact (toNat_add_two hpc).trans (by decide)
  case ldB | stRegs =>
    rcases State.storeAtI_pc h with he | he <;> rw [he]
    · exact next
    · exact here
  all_goals cases h; exact next

/-! ## What an instruction does to memory and the stack -/

theorem exec_mem_wf {i : Instr} {s t : State} (h : exec i s = .next t) (hm : s.mem.wf s.cfg.glyphTable) :
    t.mem.wf t.cfg.glyphTable := by
  have store {bs : List Byte} (h : s.storeAtI bs = .next t) : t.mem.wf t.cfg.glyphTable := by
    rcases s.storeAtI_cases bs with ⟨-, he⟩ | ⟨-, -, he⟩ <;> cases he.symm.trans h
    · exact State.wf_writeBytes hm _ bs
    · exact hm
  by_cases hw : .mem ∈ i.writes
  · obtain ⟨x, rfl | rfl⟩ := mem_mem_writes.1 hw <;> exact store h
  · have hkeep : t.mem = s.mem := exec_keepsExcept h .mem (by simp [hw])
    rwa [hkeep, exec_cfg h]

/-- The stack stays, loses its most recent entry, or gains the advanced `PC` where it has room. -/
theorem exec_stack_cases {i : Instr} {s t : State} (h : exec i s = .next t) :
    t.stack = s.stack ∨ (∃ top, s.stack = t.stack ++ [top]) ∨
      (s.sp ≠ s.cfg.stackDepth ∧ t.stack = s.stack ++ [s.nextPc]) := by
  by_cases hw : .stack ∈ i.writes
  · obtain rfl | ⟨nnn, rfl⟩ := stack_mem_writes.1 hw
    · rcases execRet_cases s with ⟨older, top, hs, he⟩ | ⟨-, he⟩ <;> cases he.symm.trans h
      · exact .inr (.inl ⟨top, hs⟩)
      · exact .inl rfl
    · rcases execCall_cases s nnn with ⟨hroom, he⟩ | ⟨-, he⟩ <;> cases he.symm.trans h
      · exact .inr (.inr ⟨hroom, rfl⟩)
      · exact .inl rfl
  · exact .inl (exec_keepsExcept h .stack (by simp [hw]))

theorem exec_sp_le {i : Instr} {s t : State} (h : exec i s = .next t) (hs : s.sp ≤ s.cfg.stackDepth) :
    t.sp ≤ t.cfg.stackDepth := by
  rw [exec_cfg h]
  unfold State.sp at *
  rcases exec_stack_cases h with he | ⟨top, he⟩ | ⟨hroom, he⟩
  · rwa [he]
  · rw [he, List.length_append] at hs
    exact (Nat.le_add_right ..).trans hs
  · rw [he, List.length_append]
    exact lt_of_le_of_ne hs hroom

theorem exec_returns_le {i : Instr} {s t : State} (h : exec i s = .next t) (hpc : s.pc.toNat ≤ 0xFFE)
    (hs : ∀ a ∈ s.stack, a.toNat ≤ 0x1000) : ∀ a ∈ t.stack, a.toNat ≤ 0x1000 := by
  rcases exec_stack_cases h with he | ⟨top, he⟩ | ⟨-, he⟩
  · rwa [he]
  · rw [he] at hs
    exact fun a ha => hs a (List.mem_append_left _ ha)
  · rw [he]
    intro a ha
    rcases List.mem_append.1 ha with ha | ha
    · exact hs a ha
    · rw [List.mem_singleton.1 ha]
      exact State.nextPc_le hpc

/-- Only FX0A pauses, and it stays where it is (`40_step_cycle.md` R125). -/
theorem exec_atKeyWait {iw : Word} {s t : State} (hiw : s.fetch = some iw) (h : exec (decode iw) s = .next t)
    (hs : s.paused = true → s.atKeyWait) (ht : t.paused = true) : t.atKeyWait := by
  by_cases hw : .paused ∈ (decode iw).writes
  · obtain ⟨x, hx⟩ := paused_mem_writes.1 hw
    rw [hx] at h
    rcases execLdVxK_cases s x with ⟨-, he⟩ | ⟨k, -, he⟩ <;> cases he.symm.trans h
    · exact ⟨iw, x, hiw, hx⟩
    · cases ht
  · have hkeep : t.paused = s.paused := exec_keepsExcept h .paused (by simp [hw])
    obtain ⟨iw', x, hiw', hx⟩ := hs (hkeep ▸ ht)
    cases hiw.symm.trans hiw'
    exact absurd (paused_mem_writes.2 ⟨x, hx⟩) hw

/-! ## The invariant -/

/-- The parts the invariant does not speak of. -/
def partsOutsideInv : List Part := [.regs, .i, .dt, .st, .fb, .keys, .fault, .draws]

theorem State.Inv.of_keepsExcept {s t : State} (h : s.Inv) (hk : s.keepsExcept partsOutsideInv t) : t.Inv := by
  have hmem : t.mem = s.mem := hk .mem (by decide)
  have hcfg : t.cfg = s.cfg := hk .cfg (by decide)
  have hstack : t.stack = s.stack := hk .stack (by decide)
  have hpc : t.pc = s.pc := hk .pc (by decide)
  have hpaused : t.paused = s.paused := hk .paused (by decide)
  refine ⟨by rw [hmem, hcfg]; exact h.mem, by rw [State.sp, hstack, hcfg]; exact h.depth, by rw [hstack]; exact h.returns,
    by rw [hpc]; exact h.pc, fun hp => ?_⟩
  obtain ⟨iw, x, hiw, hx⟩ := h.paused (hpaused ▸ hp)
  exact ⟨iw, x, (State.fetch_congr hpc (State.byte_congr hmem hcfg)).trans hiw, hx⟩

theorem exec_inv {iw : Word} {s t : State} (hs : s.Inv) (hiw : s.fetch = some iw) (h : exec (decode iw) s = .next t) :
    t.Inv := by
  obtain ⟨hpc, -⟩ := s.fetch_eq_some.1 hiw
  exact ⟨exec_mem_wf h hs.mem, exec_sp_le h hs.depth, exec_returns_le h hpc hs.returns, exec_pc_le h hpc hs.returns,
    exec_atKeyWait hiw h hs.paused⟩

theorem step_inv {s t : State} (hs : s.Inv) (h : step s = .next t) : t.Inv := by
  rcases step_cases h with ⟨-, rfl⟩ | ⟨-, -, rfl⟩ | ⟨iw, u, -, hiw, hu, rfl⟩
  · exact hs
  · exact hs.of_keepsExcept (State.keepsExcept_withFault _ (by decide))
  · exact (exec_inv hs hiw hu).of_keepsExcept (State.keepsExcept_finish (by decide) (by decide))

/-! ## The host's operations -/

theorem resetWith_inv (c : Config) : (State.resetWith c).Inv where
  mem := ⟨List.Pairwise.nil, by simp [State.resetWith]⟩
  depth := Nat.zero_le _
  returns := by simp [State.resetWith]
  pc := by simp [State.resetWith, progOrigin]
  paused := by simp [State.resetWith]

theorem hostReset_inv (s : State) : s.hostReset.Inv := by
  refine (resetWith_inv s.cfg).of_keepsExcept fun p hp => ?_
  cases p
  case draws => exact absurd (by decide) hp
  all_goals rfl

/-- A load keeps the invariant of a machine that is not paused; the word a paused one waits at could be overwritten. -/
theorem load_inv {s : State} (hs : s.Inv) (hp : s.paused = false) (image : List Byte) : (s.load image).Inv := by
  unfold State.load
  split
  · exact ⟨State.wf_writeBytes hs.mem _ _, hs.depth, hs.returns, hs.pc, fun h => by simp [hp] at h⟩
  · exact hs

@[simp] theorem State.load_cfg (s : State) (image : List Byte) : (s.load image).cfg = s.cfg := by
  unfold State.load
  split <;> rfl

theorem keyWrite_inv {s : State} (hs : s.Inv) (k : Nibble) (down : Bool) : (s.keyWrite k down).Inv :=
  hs.of_keepsExcept (State.keepsExcept_keyWrite k down (by decide))

/-- Settles O57: each clause of the invariant by the lemma on what an instruction does to the part it speaks of. -/
theorem stepKeepsTheInvariant : Obligations.StepKeepsTheInvariant := fun _ _ => step_inv

/-- Settles O58, by induction on how the host brought the machine there. -/
theorem reachableStatesSatisfyTheInvariant : Obligations.ReachableStatesSatisfyTheInvariant := by
  intro c s hs
  induction hs with
  | boot image => exact ⟨load_inv (resetWith_inv c) rfl image, State.load_cfg _ image⟩
  | keyWrite k down _ ih => exact ⟨keyWrite_inv ih.1 k down, ih.2⟩
  | step _ h ih => exact ⟨step_inv ih.1 h, (step_cfg h).trans ih.2⟩
  | again image _ ih => exact ⟨load_inv (hostReset_inv _) rfl image, (State.load_cfg _ image).trans ih.2⟩

end Sys2Proof.Machine
end

section
/-! The word a fetch reads, as its two bytes (`20_memory.md` R60). -/

namespace Sys2Proof

theorem fieldClass_append_fieldX (iw : Word) : fieldClass iw ++ fieldX iw = iw.extractLsb' 8 8 :=
  BitVec.extractLsb'_append_extractLsb'_eq_extractLsb' rfl

theorem fieldY_append_fieldN (iw : Word) : fieldY iw ++ fieldN iw = fieldNN iw :=
  BitVec.extractLsb'_append_extractLsb'_eq_extractLsb' rfl

theorem fieldClass_append_fieldX_wordOfBytes (hi lo : Byte) :
    fieldClass (wordOfBytes hi lo) ++ fieldX (wordOfBytes hi lo) = hi :=
  (fieldClass_append_fieldX _).trans BitVec.extractLsb'_append_eq_left

@[simp] theorem fieldNN_wordOfBytes (hi lo : Byte) : fieldNN (wordOfBytes hi lo) = lo :=
  BitVec.extractLsb'_append_eq_right

theorem wordOfBytes_toNat_div (hi lo : Byte) : (wordOfBytes hi lo).toNat / 256 = hi.toNat := by
  have := lo.isLt
  rw [wordOfBytes_toNat]
  omega

theorem wordOfBytes_toNat_mod (hi lo : Byte) : (wordOfBytes hi lo).toNat % 256 = lo.toNat := by
  have := lo.isLt
  rw [wordOfBytes_toNat]
  omega

end Sys2Proof

namespace Sys2Proof.Machine

theorem State.fetch_of_pc_le {s : State} (hpc : s.pc.toNat ≤ 0xFFE) :
    s.fetch = some (wordOfBytes (s.byte s.pc.toNat) (s.byte (s.pc.toNat + 1))) :=
  s.fetch_eq_some.2 ⟨hpc, rfl⟩

/-- Settles O6: the fetched word is the two bytes joined, and its fields are cut where they were joined. -/
theorem fetchIsBigEndian : Obligations.FetchIsBigEndian := fun _ hpc =>
  ⟨_, State.fetch_of_pc_le hpc, wordOfBytes_toNat .., fieldClass_append_fieldX_wordOfBytes ..,
    (fieldY_append_fieldN _).trans (fieldNN_wordOfBytes ..), fieldNN_wordOfBytes ..⟩

end Sys2Proof.Machine
end

section
/-! What FX33 and FX55 leave at each address, and so what a fetch reads after them (`20_memory.md` R76). -/

namespace Sys2Proof.Machine

/-- A store that fits leaves its `k`-th byte at `I + k`. -/
theorem byte_add_of_storeAtI {s t : State} {bs : List Byte} (hfit : s.i.toNat + bs.length ≤ memSize)
    (h : s.storeAtI bs = .next t) {k : Nat} (hk : k < bs.length) : t.byte (s.i.toNat + k) = bs.getD k 0 := by
  rcases s.storeAtI_cases bs with ⟨-, he⟩ | ⟨-, hout, -⟩
  · cases he.symm.trans h
    rw [State.byte_advance, State.byte_writeBytes, if_pos (by omega), Nat.add_sub_cancel_left]
  · exact absurd hfit hout.not_ge

theorem bcdDigits_map_toNat (v : Byte) :
    (bcdDigits v).map BitVec.toNat = [v.toNat / 100, v.toNat / 10 % 10, v.toNat % 10] := by
  have := v.isLt
  simp [bcdDigits]
  omega

/-- Every byte after an FX33 that fits (`44_index_memory.md` R216). -/
theorem byte_of_execLdB {x : Nibble} {s t : State} (hfit : s.i.toNat + 2 ≤ 4095) (h : exec (.ldB x) s = .next t)
    (a : Nat) :
    (a = s.i.toNat → (t.byte a).toNat = (s.reg x).toNat / 100) ∧
    (a = s.i.toNat + 1 → (t.byte a).toNat = (s.reg x).toNat / 10 % 10) ∧
    (a = s.i.toNat + 2 → (t.byte a).toNat = (s.reg x).toNat % 10) ∧
    (a < s.i.toNat ∨ s.i.toNat + 2 < a → t.byte a = s.byte a) := by
  have stored {k : Nat} (hk : k < 3) : (t.byte (s.i.toNat + k)).toNat =
      [(s.reg x).toNat / 100, (s.reg x).toNat / 10 % 10, (s.reg x).toNat % 10].getD k 0 := by
    rw [byte_add_of_storeAtI (bs := bcdDigits (s.reg x)) (Nat.succ_le_succ hfit) h hk, ← bcdDigits_map_toNat]
    exact (List.getD_map _ _ BitVec.toNat).symm
  refine ⟨?hundreds, ?tens, ?units, exec_byte h⟩
  case hundreds => rintro rfl; exact stored (k := 0) (by decide)
  case tens => rintro rfl; exact stored (k := 1) (by decide)
  case units => rintro rfl; exact stored (k := 2) (by decide)

/-- Every byte after an FX55 that fits (`44_index_memory.md` R222). -/
theorem byte_of_execStRegs {x : Nibble} {s t : State} (hfit : s.i.toNat + x.toNat ≤ 4095)
    (h : exec (.stRegs x) s = .next t) (a : Nat) :
    (∀ k : Nibble, k.toNat ≤ x.toNat → a = s.i.toNat + k.toNat → t.byte a = s.reg k) ∧
    (a < s.i.toNat ∨ s.i.toNat + x.toNat < a → t.byte a = s.byte a) := by
  have hlen : (s.regsThrough x).length = x.toNat + 1 := State.length_regsThrough s x
  refine ⟨?stored, exec_byte h⟩
  rintro k hk rfl
  rw [byte_add_of_storeAtI (hlen ▸ Nat.succ_le_succ hfit) h (hlen ▸ Nat.lt_succ_of_le hk)]
  exact State.getD_regsThrough s hk 0

/-- Settles O36: the two bytes of the next word are bytes the store left, each read at its own address. -/
theorem storesReachTheNextFetch : Obligations.StoresReachTheNextFetch := by
  intro x s t hpc
  refine ⟨fun hfit h => ⟨_, State.fetch_of_pc_le hpc, ?_⟩, fun hfit h => ⟨_, State.fetch_of_pc_le hpc, ?_⟩⟩
    <;> rw [wordOfBytes_toNat_div, wordOfBytes_toNat_mod]
  · obtain ⟨hi100, hi10, hi1, hiKept⟩ := byte_of_execLdB hfit h t.pc.toNat
    obtain ⟨lo100, lo10, lo1, loKept⟩ := byte_of_execLdB hfit h (t.pc.toNat + 1)
    exact ⟨hi100, hi10, hi1, fun ho => congrArg _ (hiKept ho), lo100, lo10, lo1, fun ho => congrArg _ (loKept ho)⟩
  · obtain ⟨hiStored, hiKept⟩ := byte_of_execStRegs hfit h t.pc.toNat
    obtain ⟨loStored, loKept⟩ := byte_of_execStRegs hfit h (t.pc.toNat + 1)
    exact ⟨fun k hk he => congrArg _ (hiStored k hk he), fun ho => congrArg _ (hiKept ho),
      fun k hk he => congrArg _ (loStored k hk he), fun ho => congrArg _ (loKept ho)⟩

end Sys2Proof.Machine
end

section
/-! Decode and encode are inverse, decode takes the row the opcode table chooses, and the fields are the digits
(`30_encoding.md` R91 to R101). -/

namespace Sys2Proof

section
variable {iw : Word}

/-! ## The classes with a second level, and their words of no recognised pattern (R94, R97, R98) -/

theorem decode_of_class0 (hc : fieldClass iw = 0x0#4) : decode iw = decode0 iw := by simp only [decode, hc]
theorem decode_of_class8 (hc : fieldClass iw = 0x8#4) : decode iw = decode8 iw := by simp only [decode, hc]
theorem decode_of_classE (hc : fieldClass iw = 0xE#4) : decode iw = decodeE iw := by simp only [decode, hc]
theorem decode_of_classF (hc : fieldClass iw = 0xF#4) : decode iw = decodeF iw := by simp [decode, hc]

theorem decode_eq_sys (hc : fieldClass iw = 0x0#4) (hn : fieldNNN iw ∉ class0Rows) : decode iw = .sys (fieldNNN iw) := by
  rw [decode_of_class0 hc]
  unfold decode0
  split_ifs <;> simp_all [class0Rows]

theorem decode_eq_nop8 (hc : fieldClass iw = 0x8#4) (hn : fieldN iw ∉ class8Rows) :
    decode iw = .nop8 (fieldX iw) (fieldY iw) (fieldN iw) := by
  rw [decode_of_class8 hc]
  unfold decode8
  split <;> simp_all [class8Rows]

theorem decode_eq_nopE (hc : fieldClass iw = 0xE#4) (hn : fieldNN iw ∉ classERows) :
    decode iw = .nopE (fieldX iw) (fieldNN iw) := by
  rw [decode_of_classE hc]
  unfold decodeE
  split <;> simp_all [classERows]

theorem decode_eq_nopF (hc : fieldClass iw = 0xF#4) (hn : fieldNN iw ∉ classFRows) :
    decode iw = .nopF (fieldX iw) (fieldNN iw) := by
  rw [decode_of_classF hc]
  unfold decodeF
  split <;> simp_all [classFRows]

@[simp] theorem wf_sys {nnn : Addr12} : (Instr.sys nnn).wf = true ↔ nnn ∉ class0Rows := by simp [Instr.wf]
@[simp] theorem wf_nop8 {x y n : Nibble} : (Instr.nop8 x y n).wf = true ↔ n ∉ class8Rows := by simp [Instr.wf]
@[simp] theorem wf_nopE {x : Nibble} {nn : Byte} : (Instr.nopE x nn).wf = true ↔ nn ∉ classERows := by simp [Instr.wf]
@[simp] theorem wf_nopF {x : Nibble} {nn : Byte} : (Instr.nopF x nn).wf = true ↔ nn ∉ classFRows := by simp [Instr.wf]

end

/-! ## Decode after encode -/

theorem decode_encode {i : Instr} (h : i.wf = true) : decode (encode i) = i := by
  cases i
  case cls | ret => rfl
  case sys nnn => simpa [encode] using decode_eq_sys (iw := encodeNNN 0x0 nnn) (by simp) (by simpa using h)
  case nop8 x y n => simpa [encode] using decode_eq_nop8 (iw := encodeXYN 0x8 x y n) (by simp) (by simpa using h)
  case nopE x nn => simpa [encode] using decode_eq_nopE (iw := encodeXNN 0xE x nn) (by simp) (by simpa using h)
  case nopF x nn => simpa [encode] using decode_eq_nopF (iw := encodeXNN 0xF x nn) (by simp) (by simpa using h)
  case ldReg | or | and | xor | addReg | sub | shr | subn | shl => simp [encode, decode, decode8]
  case skp | sknp => simp [encode, decode, decodeE]
  case ldVxDt | ldVxK | ldDtVx | ldStVx | addI | ldF | ldB | stRegs | ldRegs => simp [encode, decode, decodeF]
  -- The classes of one level.
  all_goals simp [encode, decode]

/-- Settles O1: constructor by constructor, the fields of the encoded word are the operands. -/
theorem decodeInvertsEncode : Obligations.DecodeInvertsEncode := fun _ => decode_encode

/-! ## Encode after decode -/

/-- The instruction is well-formed and the word is its encoding. -/
def Instr.standsFor (i : Instr) (iw : Word) : Prop := encode i = iw ∧ i.wf = true

section
variable {iw : Word} {c : Nibble}

theorem encodeNNN_of_class (hc : fieldClass iw = c) : encodeNNN c (fieldNNN iw) = iw := hc ▸ encodeNNN_fields iw
theorem encodeXNN_of_class (hc : fieldClass iw = c) : encodeXNN c (fieldX iw) (fieldNN iw) = iw :=
  hc ▸ encodeXNN_fields iw
theorem encodeXYN_of_class (hc : fieldClass iw = c) : encodeXYN c (fieldX iw) (fieldY iw) (fieldN iw) = iw :=
  hc ▸ encodeXYN_fields iw

theorem decode0_standsFor (hc : fieldClass iw = 0x0#4) : (decode0 iw).standsFor iw := by
  have hiw := encodeNNN_of_class hc
  unfold decode0 Instr.standsFor
  split_ifs <;> simp_all [encode, Instr.wf, class0Rows]

theorem decode8_standsFor (hc : fieldClass iw = 0x8#4) : (decode8 iw).standsFor iw := by
  have hiw := encodeXYN_of_class hc
  unfold decode8 Instr.standsFor
  split <;> simp_all [encode, Instr.wf, class8Rows]

theorem decodeE_standsFor (hc : fieldClass iw = 0xE#4) : (decodeE iw).standsFor iw := by
  have hiw := encodeXNN_of_class hc
  unfold decodeE Instr.standsFor
  split <;> simp_all [encode, Instr.wf, classERows]

theorem decodeF_standsFor (hc : fieldClass iw = 0xF#4) : (decodeF iw).standsFor iw := by
  have hiw := encodeXNN_of_class hc
  unfold decodeF Instr.standsFor
  split <;> simp_all [encode, Instr.wf, classFRows]

end

theorem decode_standsFor (iw : Word) : (decode iw).standsFor iw := by
  unfold decode
  split
  case h_1 hc => exact decode0_standsFor hc
  case h_9 hc => exact decode8_standsFor hc
  case h_15 hc => exact decodeE_standsFor hc
  case h_16 =>
    have hc : fieldClass iw = 0xF#4 := by simp only [imp_false] at *; bv_omega
    exact decodeF_standsFor hc
  -- The classes of one level, by their operand shape: NNN, XNN, XYN.
  case h_2 hc | h_3 hc | h_11 hc | h_12 hc => exact ⟨encodeNNN_of_class hc, rfl⟩
  case h_4 hc | h_5 hc | h_7 hc | h_8 hc | h_13 hc => exact ⟨encodeXNN_of_class hc, rfl⟩
  case h_6 hc | h_10 hc | h_14 hc => exact ⟨encodeXYN_of_class hc, rfl⟩

/-- Settles O2: class by class, the instruction keeps every field of the word. -/
theorem encodeInvertsDecode : Obligations.EncodeInvertsDecode := decode_standsFor

/-! ## The row of the opcode table (R95, R96) -/

/-- The sixteen values of the class. -/
def classes : List Nibble := (List.range 16).map (BitVec.ofNat 4)

theorem mem_classes (c : Nibble) : c ∈ classes := by revert c; decide

/-- The table's rows, group by group, as the recognised discriminators of each group in the shape its mask keeps. -/
theorem opcodeRows_eq_groups : opcodeRows =
    class0Rows.map (fun nnn => (0xFFFF#16, encodeNNN 0x0#4 nnn)) ++
    (classERows.map (fun nn => (0xF0FF#16, encodeXNN 0xE#4 0x0#4 nn)) ++
    (classFRows.map (fun nn => (0xF0FF#16, encodeXNN 0xF#4 0x0#4 nn)) ++
    (class8Rows.map (fun n => (0xF00F#16, encodeXYN 0x8#4 0x0#4 0x0#4 n)) ++
    classes.map fun c => (0xF000#16, encodeNNN c 0x000#12)))) := rfl

section
variable {α : Type} [DecidableEq α] {p : Word × Word → Bool} {row : α → Word × Word} {b : Bool} {a : α}

/-- The search in a group of rows that match by one discriminator: `b` says that the class is the group's, `a` is the
discriminator of the word. -/
theorem find?_map_row (hp : ∀ d, p (row d) = (b && a == d)) (l : List α) :
    (l.map row).find? p = if b ∧ a ∈ l then some (row a) else none := by
  induction l with
  | nil => simp
  | cons d l ih =>
    rw [List.map_cons, List.find?_cons, hp, ih]
    by_cases hd : a = d
    · cases b <;> simp [hd]
    · cases b <;> simp [hd, beq_false_of_ne hd]

theorem find?_map_row_append (hp : ∀ d, p (row d) = (b && a == d)) (l : List α) (rest : List (Word × Word)) :
    (l.map row ++ rest).find? p = if b ∧ a ∈ l then some (row a) else rest.find? p := by
  rw [List.find?_append, find?_map_row hp]
  split_ifs <;> rfl

end

/-- The row R95 chooses, in terms of the word's fields. -/
theorem find?_opcodeRows (iw : Word) : opcodeRows.find? (rowMatches iw) =
    if fieldClass iw = 0x0#4 ∧ fieldNNN iw ∈ class0Rows then some (0xFFFF#16, 0x0#4 ++ fieldNNN iw)
    else if fieldClass iw = 0xE#4 ∧ fieldNN iw ∈ classERows then some (0xF0FF#16, 0xE#4 ++ 0x0#4 ++ fieldNN iw)
    else if fieldClass iw = 0xF#4 ∧ fieldNN iw ∈ classFRows then some (0xF0FF#16, 0xF#4 ++ 0x0#4 ++ fieldNN iw)
    else if fieldClass iw = 0x8#4 ∧ fieldN iw ∈ class8Rows then some (0xF00F#16, 0x8#4 ++ 0x0#4 ++ 0x0#4 ++ fieldN iw)
    else some (0xF000#16, fieldClass iw ++ 0x000#12) := by
  rw [opcodeRows_eq_groups, find?_map_row_append (rowMatches_FFFF iw 0x0#4),
    find?_map_row_append (rowMatches_F0FF iw 0xE#4), find?_map_row_append (rowMatches_F0FF iw 0xF#4),
    find?_map_row_append (rowMatches_F00F iw 0x8#4), find?_map_row (b := true) (rowMatches_F000 iw)]
  simp only [beq_iff_eq, mem_classes, and_self, if_true]
  rfl

theorem find?_opcodeRows_encode {i : Instr} (h : i.wf = true) :
    opcodeRows.find? (rowMatches (encode i)) = some i.row := by
  rw [find?_opcodeRows]
  cases i
  case cls | ret => rfl
  case sys | nop8 | nopE | nopF => simp_all [encode, Instr.row]
  case ldReg | or | and | xor | addReg | sub | shr | subn | shl => simp [encode, Instr.row, class8Rows]
  case skp | sknp => simp [encode, Instr.row, classERows]
  case ldVxDt | ldVxK | ldDtVx | ldStVx | addI | ldF | ldB | stRegs | ldRegs => simp [encode, Instr.row, classFRows]
  -- The classes of one level: no group before the last has their class.
  all_goals simp [encode, Instr.row]

/-- Settles O3: the word is the encoding of what it decodes to, and the table chooses the row of an encoded instruction. -/
theorem decodeChoosesTheOpcodeTableRow : Obligations.DecodeChoosesTheOpcodeTableRow := by
  intro iw
  obtain ⟨hiw, hwf⟩ := decode_standsFor iw
  have hrow := find?_opcodeRows_encode hwf
  rwa [hiw] at hrow

/-! ## The digits of a word (R92) -/

theorem fields_toNat (iw : Word) :
    (fieldClass iw).toNat = iw.toNat / 4096 ∧ (fieldX iw).toNat = iw.toNat / 256 % 16 ∧
    (fieldY iw).toNat = iw.toNat / 16 % 16 ∧ (fieldN iw).toNat = iw.toNat % 16 ∧
    (fieldNN iw).toNat = iw.toNat % 256 ∧ (fieldNNN iw).toNat = iw.toNat % 4096 := by
  have := iw.isLt
  simp only [fieldClass, fieldX, fieldY, fieldN, fieldNN, fieldNNN, BitVec.extractLsb'_toNat, Nat.shiftRight_eq_div_pow,
    Nat.pow_zero, Nat.div_one, and_true]
  omega

theorem fieldNNN_eq_digits (iw : Word) : fieldNNN iw = fieldX iw ++ fieldY iw ++ fieldN iw := by
  have hXY : fieldX iw ++ fieldY iw = iw.extractLsb' 4 8 := BitVec.extractLsb'_append_extractLsb'_eq_extractLsb' rfl
  have hXYN : iw.extractLsb' 4 8 ++ fieldN iw = fieldNNN iw := BitVec.extractLsb'_append_extractLsb'_eq_extractLsb' rfl
  rw [hXY, hXYN]

/-- Settles O5: each field is a quotient and remainder of the word, and fields side by side join to what they span. -/
theorem fieldsAreTheDigitsOfTheWord : Obligations.FieldsAreTheDigitsOfTheWord :=
  ⟨fields_toNat, fieldNNN_eq_digits, fun hi lo => ⟨(fieldClass_append_fieldX_wordOfBytes hi lo).symm,
    ((fieldY_append_fieldN _).trans (fieldNN_wordOfBytes hi lo)).symm, (fieldNN_wordOfBytes hi lo).symm⟩⟩

end Sys2Proof
end

section
/-! No illegal instruction: every step gives a next state, and an unrecognised word is a no-op (`30_encoding.md` R98, R101). -/

namespace Sys2Proof.Machine

theorem storeAtI_next (s : State) (bs : List Byte) : ∃ t, s.storeAtI bs = .next t := by
  rcases s.storeAtI_cases bs with ⟨-, h⟩ | ⟨-, -, h⟩ <;> exact ⟨_, h⟩

theorem exec_next (i : Instr) (s : State) : ∃ t, exec i s = .next t := by
  cases i
  case ret => rcases execRet_cases s with ⟨_, _, -, h⟩ | ⟨-, h⟩ <;> exact ⟨_, h⟩
  case call nnn => rcases execCall_cases s nnn with ⟨-, h⟩ | ⟨-, h⟩ <;> exact ⟨_, h⟩
  case drw x y n => rcases execDrw_cases s x y n with ⟨-, h⟩ | ⟨-, -, h⟩ <;> exact ⟨_, h⟩
  case ldRegs x => rcases execLdRegs_cases s x with ⟨-, h⟩ | ⟨-, h⟩ <;> exact ⟨_, h⟩
  case skp x => rcases execSkp_cases s x with ⟨_, -, h⟩ | ⟨-, h⟩ <;> exact ⟨_, h⟩
  case sknp x => rcases execSknp_cases s x with ⟨_, -, h⟩ | ⟨-, h⟩ <;> exact ⟨_, h⟩
  case ldVxK x => rcases execLdVxK_cases s x with ⟨-, h⟩ | ⟨_, -, h⟩ <;> exact ⟨_, h⟩
  case ldB | stRegs => exact storeAtI_next s _
  -- The instructions with one outcome.
  all_goals exact ⟨_, rfl⟩

/-- Settles O9: stuck, the fetch fault, or an instruction, each of which gives a next state. -/
theorem everyStepGivesANextState : Obligations.EveryStepGivesANextState := by
  intro s
  by_cases hf : s.fault = .none
  · cases hiw : s.fetch with
    | none => exact ⟨_, step_eq_of_fetch_eq_none hf hiw⟩
    | some iw =>
      obtain ⟨t, ht⟩ := exec_next (decode iw) s
      exact ⟨_, step_eq_of_fetch hf hiw ht⟩
  · exact ⟨s, step_eq_of_fault hf⟩

theorem fieldNNN_notMem_class0Rows {iw : Word} (hc : fieldClass iw = 0x0#4) (hcls : iw ≠ 0x00E0) (hret : iw ≠ 0x00EE) :
    fieldNNN iw ∉ class0Rows := by
  have hiw := encodeNNN_of_class hc
  intro hn
  rcases (by simpa [class0Rows] using hn) with hn | hn <;> rw [hn] at hiw
  · exact hcls hiw.symm
  · exact hret hiw.symm

/-- The low nibbles of NOP8, as R98 lists them. -/
theorem notMem_class8Rows : ∀ n ∈ ([0x8, 0x9, 0xA, 0xB, 0xC, 0xD, 0xF] : List Nibble), n ∉ class8Rows := by decide

/-- A step of an instruction that does no more than the fetch advance (`40_step_cycle.md` R126). -/
theorem step_of_exec_eq_advance {s : State} {iw : Word} (hf : s.fault = .none) (hiw : s.fetch = some iw)
    (h : exec (decode iw) s = .next s.advance) :
    ∃ t, step s = .next t ∧ (s.paused = false → t.pc = s.pc + 2) ∧ (s.paused = true → t.pc = s.pc) ∧
      t.dt.toNat = s.dt.toNat - 1 ∧ t.st.toNat = s.st.toNat - 1 ∧ s.sameExcept [.pc, .dt, .st] t := by
  have hkeep : s.keepsExcept [.pc, .dt, .st] s.advance.finish :=
    (State.keepsExcept_advance (by simp)).trans (State.keepsExcept_finish (by simp) (by simp))
  refine ⟨_, step_eq_of_fetch hf hiw h, fun hp => ?_, fun hp => ?_, ?_, ?_, hkeep.sameExcept (by decide)⟩
  · simp [State.nextPc, hp]
  · simp [State.nextPc, hp]
  · simp [State.finish_dt, hf, decayTimer_toNat]
  · simp [State.finish_st, hf, decayTimer_toNat]

/-- Settles O14: such a word decodes to the fallback row of its class, whose meaning is the fetch advance. -/
theorem unrecognisedWordsAreNoOps : Obligations.UnrecognisedWordsAreNoOps := by
  intro s iw hf hiw h
  refine step_of_exec_eq_advance hf hiw ?_
  rcases h with ⟨hc, hcls, hret⟩ | ⟨hc, hn⟩ | ⟨hc, hskp, hsknp⟩ | ⟨hc, hnn⟩
  · rw [decode_eq_sys hc (fieldNNN_notMem_class0Rows hc hcls hret)]
    rfl
  · rw [decode_eq_nop8 hc (notMem_class8Rows _ hn)]
    rfl
  · rw [decode_eq_nopE hc (by simpa [classERows] using ⟨hskp, hsknp⟩)]
    rfl
  · rw [decode_eq_nopF hc hnn]
    rfl

end Sys2Proof.Machine
end

section
/-! The timers count executed instructions, and a waiting FX0A repeats (`40_step_cycle.md` R125 to R128;
`46_keypad_timers.md` R257, R258). -/

namespace Sys2Proof.Machine

theorem dt_mem_writes {i : Instr} : .dt ∈ i.writes ↔ ∃ x, i = .ldDtVx x := by
  cases i <;> simp [Instr.writes]

theorem st_mem_writes {i : Instr} : .st ∈ i.writes ↔ ∃ x, i = .ldStVx x := by
  cases i <;> simp [Instr.writes]

theorem exec_dt_of_ne {i : Instr} {s t : State} (h : exec i s = .next t) (hi : ∀ x, i ≠ .ldDtVx x) : t.dt = s.dt :=
  exec_keepsExcept h .dt (by simp [dt_mem_writes, hi])

theorem exec_st_of_ne {i : Instr} {s t : State} (h : exec i s = .next t) (hi : ∀ x, i ≠ .ldStVx x) : t.st = s.st :=
  exec_keepsExcept h .st (by simp [st_mem_writes, hi])

/-- A step that does not raise is a fetched instruction, and each timer ends one below what the instruction left in it. -/
theorem timers_of_step {s t : State} (hf : s.fault = .none) (h : step s = .next t) (ht : t.fault = .none) :
    ∃ iw u, s.fetch = some iw ∧ exec (decode iw) s = .next u ∧
      t.dt.toNat = u.dt.toNat - 1 ∧ t.st.toNat = u.st.toNat - 1 := by
  rcases step_cases h with ⟨hfault, -⟩ | ⟨-, -, rfl⟩ | ⟨iw, u, -, hiw, hu, rfl⟩
  · exact absurd hf hfault
  · cases ht
  · rw [State.finish_fault] at ht
    refine ⟨iw, u, hiw, hu, ?_, ?_⟩
    · rw [State.finish_dt, if_pos ht, decayTimer_toNat]
    · rw [State.finish_st, if_pos ht, decayTimer_toNat]

/-- Settles O11: the decay follows the instruction, which leaves `V[X]` in its own timer and keeps every other one. -/
theorem timersDecayOncePerInstruction : Obligations.TimersDecayOncePerInstruction := by
  intro s t iw hf hiw h ht
  obtain ⟨iw', u, hiw', hu, hdt, hst⟩ := timers_of_step hf h ht
  cases hiw.symm.trans hiw'
  refine ⟨fun x hx => ?_, fun hne => ?_, fun x hx => ?_, fun hne => ?_⟩
  · rw [hx] at hu
    cases hu
    exact hdt
  · rwa [exec_dt_of_ne hu hne] at hdt
  · rw [hx] at hu
    cases hu
    exact hst
  · rwa [exec_st_of_ne hu hne] at hst

/-- Settles O12, by induction on the number of executed instructions. -/
theorem delayTimerCountsInstructions : Obligations.DelayTimerCountsInstructions := by
  intro run k hrun
  induction k with
  | zero => rfl
  | succ k ih =>
    obtain ⟨hf, hstep, hf', hne⟩ := hrun k k.lt_succ_self
    obtain ⟨iw, u, hiw, hu, hdt, -⟩ := timers_of_step hf hstep hf'
    rw [hdt, exec_dt_of_ne hu fun x => hne iw x hiw, ih fun j hj => hrun j (hj.trans k.lt_succ_self), Nat.sub_sub]

/-! ## The key wait -/

/-- The machine is at an FX0A, and no key is down. -/
def State.waitsForKey (s : State) : Prop := s.fault = .none ∧ s.atKeyWait ∧ s.anyKey = none

/-- From `s` to `t` the machine has spent `k` steps on an FX0A: it is paused, both timers have decayed `k` times, and all else
is the same data. -/
structure State.Waited (s : State) (k : Nat) (t : State) : Prop where
  paused : t.paused = true
  dt : t.dt.toNat = s.dt.toNat - k
  st : t.st.toNat = s.st.toNat - k
  keeps : s.keepsExcept [.paused, .dt, .st] t

theorem State.Waited.trans {s t u : State} {j k : Nat} (hst : s.Waited j t) (htu : t.Waited k u) : s.Waited (j + k) u where
  paused := htu.paused
  dt := by rw [htu.dt, hst.dt, Nat.sub_sub]
  st := by rw [htu.st, hst.st, Nat.sub_sub]
  keeps := hst.keeps.trans htu.keeps

theorem State.waitsForKey.of_waited {s t : State} {k : Nat} (hs : s.waitsForKey) (h : s.Waited k t) : t.waitsForKey := by
  obtain ⟨hf, ⟨iw, x, hiw, hx⟩, hkey⟩ := hs
  have hpc : t.pc = s.pc := h.keeps .pc (by decide)
  have hmem : t.mem = s.mem := h.keeps .mem (by decide)
  have hcfg : t.cfg = s.cfg := h.keeps .cfg (by decide)
  have hkeys : t.keys = s.keys := h.keeps .keys (by decide)
  have hfault : t.fault = s.fault := h.keeps .fault (by decide)
  refine ⟨hfault.trans hf, ⟨iw, x, ?_, hx⟩, ?_⟩
  · exact (State.fetch_congr hpc (State.byte_congr hmem hcfg)).trans hiw
  · rwa [State.anyKey, hkeys]

theorem step_of_waitsForKey {s : State} (hs : s.waitsForKey) : ∃ t, step s = .next t ∧ s.Waited 1 t := by
  obtain ⟨hf, ⟨iw, x, hiw, hx⟩, hkey⟩ := hs
  have hexec : exec (decode iw) s = .next { s with paused := true } := by
    rw [hx]
    rcases execLdVxK_cases s x with ⟨-, he⟩ | ⟨k, hk, -⟩
    · exact he
    · cases hkey.symm.trans hk
  have hpause : s.keepsExcept [.paused, .dt, .st] { s with paused := true } := by
    intro p hp; cases p <;> simp_all [State.keeps]
  refine ⟨_, step_eq_of_fetch hf hiw hexec, ?_, ?_, ?_, ?_⟩
  · rw [State.finish_paused]
  · rw [State.finish_dt, if_pos hf, decayTimer_toNat]
  · rw [State.finish_st, if_pos hf, decayTimer_toNat]
  · exact hpause.trans (State.keepsExcept_finish (by decide) (by decide))

theorem run_of_waitsForKey {s : State} (k : Nat) (hs : s.waitsForKey) :
    ∃ t, Host.Core.run Sys2Proof.core (k + 1) s = .next t ∧ s.Waited (k + 1) t := by
  induction k generalizing s with
  | zero =>
    obtain ⟨t, ht, hw⟩ := step_of_waitsForKey hs
    exact ⟨t, run_succ 0 ht, hw⟩
  | succ k ih =>
    obtain ⟨t, ht, hst⟩ := step_of_waitsForKey hs
    obtain ⟨u, hu, htu⟩ := ih (hs.of_waited hst)
    exact ⟨u, (run_succ _ ht).trans hu, Nat.add_comm 1 (k + 1) ▸ hst.trans htu⟩

/-- Settles O43: a step of a waiting machine leaves it waiting, so the wait goes on for any number of steps. -/
theorem keyWaitRepeatsUntilAKey : Obligations.KeyWaitRepeatsUntilAKey := by
  intro s k hf hwait hkeys
  obtain ⟨t, ht, hw⟩ := run_of_waitsForKey k ⟨hf, hwait, s.anyKey_eq_none.2 hkeys⟩
  exact ⟨t, ht, hw.paused, hw.keeps .pc (by decide), hw.dt, hw.st, hw.keeps.sameExcept (by decide)⟩

end Sys2Proof.Machine
end

section
/-! The two jumps set `PC` to their target, whole (`41_control_flow.md` R144, R148). -/

namespace Sys2Proof.Machine

/-- The sum of BNNN does not wrap: it is at most 0x10FE. -/
theorem State.offsetTarget_toNat (s : State) (nnn : Addr12) :
    (s.offsetTarget nnn).toNat = (s.reg 0x0#4).toNat + nnn.toNat := by
  have hreg := (s.reg 0x0#4).isLt
  have hnnn := nnn.isLt
  unfold State.offsetTarget
  rw [BitVec.toNat_add, absAddr_toNat, BitVec.toNat_setWidth]
  omega

/-- What 1NNN and BNNN share: a jump writes no register, and where the fetch finds no word is a matter of `PC` alone. -/
theorem setsPc_of_exec_eq_jump {i : Instr} {dest : State → Word} {target : State → Word → Prop}
    (hexec : ∀ s, exec i s = .next (s.advance.jump (dest s))) (htarget : ∀ s, target s (dest s)) : SetsPc i target :=
  fun s => ⟨_, hexec s, htarget s, State.reg_congr rfl _, (State.fetch_eq_none _).2⟩

/-- Settles O15: NNN zero-extended is NNN. -/
theorem jumpGoesToItsAddress : Obligations.JumpGoesToItsAddress := fun nnn =>
  ⟨decode_encode (i := .jp nnn) rfl, setsPc_of_exec_eq_jump (fun _ => rfl) fun _ => absAddr_toNat nnn⟩

/-- Settles O16: the sum of a byte and 12 bits fits the 16 bits of `PC`. -/
theorem jumpWithOffsetAddsV0 : Obligations.JumpWithOffsetAddsV0 := fun nnn =>
  ⟨decode_encode (i := .jpV0 nnn) rfl, setsPc_of_exec_eq_jump (fun _ => rfl) fun s => s.offsetTarget_toNat nnn⟩

end Sys2Proof.Machine
end

section
/-! A skip adds 2 to the advanced `PC` exactly on its condition (`42_skips.md` R168). -/

namespace Sys2Proof.Machine

theorem State.nextPc_of_not_paused {s : State} (hp : s.paused = false) : s.nextPc = s.pc + 2 := by
  simp [State.nextPc, hp]

/-- What the skips share: the test `c` decides the condition, and a skip writes no register. -/
theorem skips_of_exec_eq_skipIf {i : Instr} {c : State → Bool} {cond : State → Prop}
    (hexec : ∀ s, exec i s = .next (s.advance.skipIf (c s))) (hc : ∀ s, c s = true ↔ cond s) : Skips i cond := by
  intro s
  have hpc : (s.advance.skipIf (c s)).pc = if c s then s.nextPc + 2 else s.nextPc :=
    State.skipIf_pc _ _
  have taken (h : cond s) : (s.advance.skipIf (c s)).pc = s.nextPc + 2 := hpc.trans (if_pos ((hc s).2 h))
  have notTaken (h : ¬cond s) : (s.advance.skipIf (c s)).pc = s.nextPc := hpc.trans (if_neg fun h' => h ((hc s).1 h'))
  refine ⟨_, hexec s, taken, notTaken, fun hp => ⟨fun h => ?_, fun h => ?_⟩, State.reg_skipIf _ _ _⟩
  · rw [taken h, State.nextPc_of_not_paused hp, BitVec.add_assoc]
    rfl
  · rw [notTaken h, State.nextPc_of_not_paused hp]

/-- Settles O20: each comparison of the two bytes is one of their values. -/
theorem immediateSkipsCompareWithNN : Obligations.ImmediateSkipsCompareWithNN := fun x nn =>
  ⟨⟨decode_encode (i := .seImm x nn) rfl, skips_of_exec_eq_skipIf (fun _ => rfl) fun _ => by
      rw [beq_iff_eq, BitVec.toNat_inj]⟩,
    ⟨decode_encode (i := .sneImm x nn) rfl, skips_of_exec_eq_skipIf (fun _ => rfl) fun _ => by
      rw [bne_iff_ne, Ne, Ne, BitVec.toNat_inj]⟩⟩

end Sys2Proof.Machine
end

section
/-! The loads, 7XNN and the logic operations write `V[X]` and no flag (`43_alu.md` R180 to R185). -/

namespace Sys2Proof.Machine

/-- What these instructions share: `V[x]` is the only register written, and the value is computed from the state before. -/
theorem writesReg_of_exec_eq_setReg {i : Instr} {x : Nibble} {value : State → Byte} {result : State → Byte → Prop}
    (hexec : ∀ s, exec i s = .next (s.advance.setReg x (value s))) (hvalue : ∀ s, result s (value s)) :
    WritesReg i x result := by
  intro s
  have hx : (s.advance.setReg x (value s)).reg x = value s := State.reg_setReg_self _ _ _
  have hVF (h : x ≠ 0xF#4) : (s.advance.setReg x (value s)).reg 0xF#4 = s.reg 0xF#4 :=
    State.reg_setReg_of_ne _ h.symm _
  exact ⟨_, hexec s, hx.symm ▸ hvalue s, hVF, rfl⟩

/-- Settles O22: the value written is the source itself. -/
theorem loadsCopyTheirSource : Obligations.LoadsCopyTheirSource :=
  ⟨fun x nn => ⟨decode_encode (i := .ldImm x nn) rfl, writesReg_of_exec_eq_setReg (fun _ => rfl) fun _ => rfl⟩,
    fun x y => ⟨decode_encode (i := .ldReg x y) rfl, writesReg_of_exec_eq_setReg (fun _ => rfl) fun _ => rfl⟩⟩

/-- Settles O23: the sum of two bytes is the sum of their values modulo 256. -/
theorem addImmediateWrapsWithoutFlag : Obligations.AddImmediateWrapsWithoutFlag := fun x nn =>
  ⟨decode_encode (i := .addImm x nn) rfl,
    writesReg_of_exec_eq_setReg (fun _ => rfl) fun s => BitVec.toNat_add (s.reg x) nn⟩

/-- Settles O24: each bit of the result is the operation on the operands' bits. -/
theorem logicIsBitwiseAndLeavesVF : Obligations.LogicIsBitwiseAndLeavesVF := fun x y =>
  ⟨⟨decode_encode (i := .or x y) rfl, writesReg_of_exec_eq_setReg (fun _ => rfl) fun _ _ => BitVec.getLsbD_or⟩,
    ⟨decode_encode (i := .and x y) rfl, writesReg_of_exec_eq_setReg (fun _ => rfl) fun _ _ => BitVec.getLsbD_and⟩,
    ⟨decode_encode (i := .xor x y) rfl, writesReg_of_exec_eq_setReg (fun _ => rfl) fun _ _ => BitVec.getLsbD_xor⟩⟩

end Sys2Proof.Machine
end

section
/-! ANNN loads the index register with its 12-bit operand, zero-extended (`44_index_memory.md` R210). -/

namespace Sys2Proof.Machine

/-- Settles O30: NNN zero-extended is NNN, and setting `I` leaves the advanced `PC` and the registers as they are. -/
theorem loadIndexTakesNNN : Obligations.LoadIndexTakesNNN := by
  refine fun nnn => ⟨decode_encode (i := .ldI nnn) rfl, fun s => ⟨s.advance.setI (absAddr nnn), rfl, ?_, ?_, ?_⟩⟩
  · rw [State.setI_i, absAddr_toNat]
  · rw [State.setI_pc, State.advance_pc]
  · rw [State.reg_setI, State.reg_advance]

end Sys2Proof.Machine
end

section
/-! The frame buffer: 00E0 clears it, and DXYN toggles each pixel of its sprite once, so that a second draw undoes the first
(`45_display.md` R230, R232, R238). -/

namespace Sys2Proof.Machine

/-- Settles O38: only 0x00E0 encodes the instruction, and the cleared buffer has no pixel lit. -/
theorem clearTurnsEveryPixelOff : Obligations.ClearTurnsEveryPixelOff := by
  refine ⟨decode_encode (i := .cls) rfl, fun iw hcls => ?_,
    fun s => ⟨s.advance.setFb fbClear, rfl, fbPixel_fbClear, rfl, State.reg_setFb ..⟩⟩
  obtain ⟨hiw, -⟩ := decode_standsFor iw
  rw [hcls] at hiw
  exact hiw.symm

theorem flagByte_eq_one {b : Bool} : flagByte b = 1 ↔ b = true := by cases b <;> decide

theorem fbPixel_mod (fb : FrameBuffer) (x y : Nat) : fbPixel fb (x % 64) (y % 32) = fbPixel fb x y := by
  simp only [fbPixel, Nat.mod_mod]

section
variable (s : State) (x y n : Nibble)

/-- The pixels the set bits of the sprite at `I` fall on, bit by bit. -/
def State.spritePixels : List (Nat × Nat) :=
  (spriteBits (s.bytesAtI n.toNat)).map (wrapAt (s.reg x).toNat (s.reg y).toNat)

@[simp] theorem State.length_bytesAtI (k : Nat) : (s.bytesAtI k).length = k := by simp [State.bytesAtI]

theorem State.nodup_spritePixels : (s.spritePixels x y n).Nodup := by
  have hlen : (s.bytesAtI n.toNat).length ≤ 32 := by
    have := n.isLt
    rw [State.length_bytesAtI]
    omega
  exact nodup_wrapAt_spriteBits _ _ hlen

/-- The pixels the sprite covers are those its bits fall on. -/
theorem State.spriteCovers_iff_mem {px py : Nat} : s.spriteCovers x y n px py ↔ (px, py) ∈ s.spritePixels x y n := by
  unfold State.spritePixels State.spriteCovers
  rw [List.mem_map]
  constructor
  · rintro ⟨row, col, hrow, hcol, hbit, rfl, rfl⟩
    exact ⟨(col, row), mem_spriteBits.2 ⟨by simpa using hrow, hcol, by simpa [State.bytesAtI] using hbit⟩, rfl⟩
  · rintro ⟨⟨col, row⟩, hp, he⟩
    obtain ⟨hrow, hcol, hbit⟩ := mem_spriteBits.1 hp
    obtain ⟨rfl, rfl⟩ := Prod.mk.inj he
    exact ⟨row, col, by simpa using hrow, hcol, by simpa [State.bytesAtI] using hbit, rfl, rfl⟩

theorem State.lt_of_spriteCovers {px py : Nat} (h : s.spriteCovers x y n px py) : px < 64 ∧ py < 32 := by
  obtain ⟨row, col, -, -, -, rfl, rfl⟩ := h
  exact ⟨Nat.mod_lt _ (by decide), Nat.mod_lt _ (by decide)⟩

/-- A lit pixel under the sprite, whatever the buffer: the covered coordinates are already wrapped. -/
theorem State.exists_covered_lit_iff (fb : FrameBuffer) :
    (∃ px py, px < 64 ∧ py < 32 ∧ s.spriteCovers x y n px py ∧ fbPixel fb px py = true) ↔
      ∃ p ∈ s.spritePixels x y n, fbPixel fb p.1 p.2 = true := by
  constructor
  · rintro ⟨px, py, -, -, hcov, hlit⟩
    exact ⟨(px, py), (s.spriteCovers_iff_mem x y n).1 hcov, hlit⟩
  · rintro ⟨⟨px, py⟩, hp, hlit⟩
    have hcov := (s.spriteCovers_iff_mem x y n).2 hp
    obtain ⟨hpx, hpy⟩ := s.lt_of_spriteCovers x y n hcov
    exact ⟨px, py, hpx, hpy, hcov, hlit⟩

/-- DXYN inverts the pixels of its sprite and no other (`45_display.md` R232, R233). -/
theorem State.fbPixel_drawResult (px py : Nat) : fbPixel (s.drawResult x y n).1 px py =
    (fbPixel s.fb px py ^^ decide ((px % 64, py % 32) ∈ s.spritePixels x y n)) :=
  fbPixel_fbDraw _ _ _ (s.nodup_spritePixels x y n) s.fb px py

/-- DXYN reports a collision exactly when a pixel of its sprite was lit (R232). -/
theorem State.drawResult_collision :
    (s.drawResult x y n).2 = true ↔ ∃ p ∈ s.spritePixels x y n, fbPixel s.fb p.1 p.2 = true := by
  have hbits := fbDraw_collision _ _ _ (s.nodup_spritePixels x y n) s.fb
  simpa [State.drawResult, State.spritePixels, wrapAt, fbPixel_mod] using hbits

end

section
variable {s t u : State} {x y n : Nibble}

/-- The rows of a DXYN are all in the store (`20_memory.md` R68). -/
def State.spriteFits (s : State) (n : Nibble) : Prop := n.toNat = 0 ∨ s.i.toNat + n.toNat ≤ memSize

theorem spriteFits_of_execDrw (h : exec (.drw x y n) s = .next t) (ht : t.fault = .none) : s.spriteFits n := by
  rcases execDrw_cases s x y n with ⟨hfit, -⟩ | ⟨-, -, he⟩
  · exact hfit
  · cases he.symm.trans h
    cases ht

/-- What a DXYN that fits leaves in the frame buffer and in `VF`. -/
theorem fb_and_flag_of_execDrw (hfit : s.spriteFits n) (h : exec (.drw x y n) s = .next t) :
    t.fb = (s.drawResult x y n).1 ∧ t.reg 0xF#4 = flagByte (s.drawResult x y n).2 := by
  rcases execDrw_cases s x y n with ⟨-, he⟩ | ⟨hne, hout, -⟩
  · cases he.symm.trans h
    exact ⟨rfl, State.reg_setReg_self ..⟩
  · exact absurd hfit (not_or.2 ⟨hne, hout.not_ge⟩)

theorem execDrw_i (h : exec (.drw x y n) s = .next t) : t.i = s.i :=
  exec_keepsExcept h .i (by simp [Instr.writes])

theorem execDrw_byte (h : exec (.drw x y n) s = .next t) (a : Nat) : t.byte a = s.byte a :=
  State.byte_congr (exec_keepsExcept h .mem (by simp [Instr.writes])) (exec_cfg h) a

/-- A draw leaves its own sprite where it was, as long as it leaves the coordinate registers. -/
theorem spritePixels_of_execDrw (h : exec (.drw x y n) s = .next t) (hx : t.reg x = s.reg x) (hy : t.reg y = s.reg y) :
    t.spritePixels x y n = s.spritePixels x y n := by
  have hrows : t.bytesAtI n.toNat = s.bytesAtI n.toNat := by simp only [State.bytesAtI, execDrw_i h, execDrw_byte h]
  rw [State.spritePixels, State.spritePixels, hrows, hx, hy]

/-- A second draw over the same pixels undoes the first. -/
theorem fb_drawResult_twice (hpixels : t.spritePixels x y n = s.spritePixels x y n) (hfb : t.fb = (s.drawResult x y n).1) :
    (t.drawResult x y n).1 = s.fb :=
  fb_ext fun px py _ _ => by
    rw [State.fbPixel_drawResult, hpixels, hfb, State.fbPixel_drawResult, Bool.xor_assoc, Bool.xor_self, Bool.xor_false]

end

/-- Settles O40: both draws toggle the same pixels once each, and the second one's collision is read from the first one's
buffer. -/
theorem drawingTwiceRestoresTheFrameBuffer : Obligations.DrawingTwiceRestoresTheFrameBuffer := by
  intro x y n s t u _ hst ht hx hy htu
  have hfit := spriteFits_of_execDrw hst ht
  have hfit' : t.spriteFits n := by rwa [State.spriteFits, execDrw_i hst]
  have hpixels := spritePixels_of_execDrw hst hx hy
  obtain ⟨htfb, -⟩ := fb_and_flag_of_execDrw hfit hst
  obtain ⟨hufb, huflag⟩ := fb_and_flag_of_execDrw hfit' htu
  refine ⟨hufb.trans (fb_drawResult_twice hpixels htfb), ?_⟩
  rw [huflag, flagByte_eq_one, State.drawResult_collision, State.exists_covered_lit_iff, hpixels]

end Sys2Proof.Machine
end

section
/-! FX07, FX15 and FX18 move a byte between `V[X]` and a timer, and the decay comes after (`46_keypad_timers.md` R259, R260,
R262). -/

namespace Sys2Proof.Machine

section
variable {s : State}

theorem State.finish_dt_toNat (h : s.fault = .none) : s.finish.dt.toNat = s.dt.toNat - 1 := by
  rw [State.finish_dt, if_pos h, decayTimer_toNat]

theorem State.finish_st_toNat (h : s.fault = .none) : s.finish.st.toNat = s.st.toNat - 1 := by
  rw [State.finish_st, if_pos h, decayTimer_toNat]

end

/-- FX07 takes `DT` as it is before the decay that ends the step (R259). -/
theorem finish_of_execLdVxDt {x : Nibble} {s t : State} (h : exec (.ldVxDt x) s = .next t) (hf : s.fault = .none) :
    t.finish.reg x = s.dt ∧ t.finish.dt.toNat = s.dt.toNat - 1 := by
  cases h
  constructor
  · rw [State.reg_finish, State.reg_setReg_self]
  · exact State.finish_dt_toNat hf

/-- Settles O44: FX07 writes a register and no timer, FX15 and FX18 a timer and no register; the decay acts on what they leave. -/
theorem timerMovesCopyTheRegister : Obligations.TimerMovesCopyTheRegister := by
  refine fun x => ⟨⟨decode_encode (i := .ldVxDt x) rfl, ?fx07, fun _ _ => finish_of_execLdVxDt⟩,
    ⟨decode_encode (i := .ldDtVx x) rfl, fun s => ?fx15⟩, ⟨decode_encode (i := .ldStVx x) rfl, fun s => ?fx18⟩⟩
  case fx07 => exact writesReg_of_exec_eq_setReg (fun _ => rfl) fun _ => rfl
  case fx15 => exact ⟨{ s.advance with dt := s.reg x }, rfl, rfl, rfl, rfl, fun hf => State.finish_dt_toNat hf⟩
  case fx18 => exact ⟨{ s.advance with st := s.reg x }, rfl, rfl, rfl, rfl, fun hf => State.finish_st_toNat hf⟩

end Sys2Proof.Machine
end

section
/-! What an instruction raises, by the table of causes, and the fault a step ends with (`60_exceptions.md` R271, R274, R284). -/

namespace Sys2Proof.Machine

/-- An instruction in the state `s` raises its cause, or it has none and completes with `FAULT` as it was. -/
def RaisesByTable (s : State) (i : Instr) : Prop :=
  (i.cause s ≠ .none ∧ exec i s = .next { s with fault := i.cause s }) ∨
    (i.cause s = .none ∧ ∃ t, exec i s = .next t ∧ t.fault = s.fault)

theorem RaisesByTable.of_raise {s : State} {i : Instr} {c : Cause} (hc : i.cause s = c) (hne : c ≠ .none)
    (h : exec i s = .next { s with fault := c }) : RaisesByTable s i := by
  subst hc
  exact .inl ⟨hne, h⟩

/-- A store of `x + 1` bytes from `I` upward raises exactly when the last of them is past the store. -/
theorem RaisesByTable.of_store {s : State} {i : Instr} {bs : List Byte} {x : Nat} (hexec : exec i s = s.storeAtI bs)
    (hlen : bs.length = x + 1) (hc : i.cause s = if 4095 < s.i.toNat + x then .memOutOfBounds else .none) :
    RaisesByTable s i := by
  rcases s.storeAtI_cases bs with ⟨hfit, he⟩ | ⟨-, hout, he⟩
  · have hfit : s.i.toNat + bs.length ≤ 4096 := hfit.resolve_left (by omega)
    exact .inr ⟨hc.trans (if_neg (by omega)), _, hexec.trans he, rfl⟩
  · have hout : 4096 < s.i.toNat + bs.length := hout
    exact .of_raise (hc.trans (if_pos (by omega))) (by decide) (hexec.trans he)

/-- A key that can be read has a number of at most 15. -/
theorem not_lt_of_keyDown? {s : State} {k : Byte} {down : Bool} (h : s.keyDown? k = some down) : ¬ 15 < k.toNat := by
  rw [← s.keyDown?_eq_none, h]
  exact Option.some_ne_none down

/-- Every instruction follows the table, by the cases of what it can do. -/
theorem exec_raisesByTable (i : Instr) (s : State) : RaisesByTable s i := by
  cases i
  case ret =>
    rcases execRet_cases s with ⟨older, top, hs, he⟩ | ⟨hs, he⟩
    · have hsp : s.sp ≠ 0 := by simp [State.sp, hs]
      exact .inr ⟨if_neg hsp, _, he, rfl⟩
    · have hsp : s.sp = 0 := by simp [State.sp, hs]
      exact .of_raise (if_pos hsp) (by decide) he
  case call nnn =>
    rcases execCall_cases s nnn with ⟨hroom, he⟩ | ⟨hfull, he⟩
    · exact .inr ⟨if_neg hroom, _, he, rfl⟩
    · exact .of_raise (if_pos hfull) (by decide) he
  case drw x y n =>
    rcases execDrw_cases s x y n with ⟨hfit, he⟩ | ⟨hne, hout, he⟩
    · have hfit : n.toNat = 0 ∨ s.i.toNat + n.toNat ≤ 4096 := hfit
      exact .inr ⟨if_neg (by omega), _, he, rfl⟩
    · have hout : 4096 < s.i.toNat + n.toNat := hout
      exact .of_raise (if_pos (by omega)) (by decide) he
  case ldRegs x =>
    rcases execLdRegs_cases s x with ⟨hfit, he⟩ | ⟨hout, he⟩
    · have hfit : s.i.toNat + (x.toNat + 1) ≤ 4096 := hfit
      exact .inr ⟨if_neg (by omega), _, he, rfl⟩
    · have hout : 4096 < s.i.toNat + (x.toNat + 1) := hout
      exact .of_raise (if_pos (by omega)) (by decide) he
  case skp x =>
    rcases execSkp_cases s x with ⟨down, hdown, he⟩ | ⟨hk, he⟩
    · exact .inr ⟨if_neg (not_lt_of_keyDown? hdown), _, he, State.skipIf_fault ..⟩
    · exact .of_raise (if_pos hk) (by decide) he
  case sknp x =>
    rcases execSknp_cases s x with ⟨down, hdown, he⟩ | ⟨hk, he⟩
    · exact .inr ⟨if_neg (not_lt_of_keyDown? hdown), _, he, State.skipIf_fault ..⟩
    · exact .of_raise (if_pos hk) (by decide) he
  case ldVxK x =>
    rcases execLdVxK_cases s x with ⟨-, he⟩ | ⟨k, -, he⟩
    · exact .inr ⟨rfl, _, he, rfl⟩
    · exact .inr ⟨rfl, _, he, rfl⟩
  case ldB x => exact .of_store rfl rfl rfl
  case stRegs x => exact .of_store rfl (s.length_regsThrough x) rfl
  case seImm | sneImm | seReg | sneReg => exact .inr ⟨rfl, _, rfl, State.skipIf_fault ..⟩
  -- The instructions with one outcome.
  all_goals exact .inr ⟨rfl, _, rfl, rfl⟩

theorem exec_of_cause_eq {i : Instr} {s : State} {c : Cause} (hc : i.cause s = c) (hne : c ≠ .none) :
    exec i s = .next { s with fault := c } := by
  subst hc
  rcases exec_raisesByTable i s with ⟨-, he⟩ | ⟨hnone, -⟩
  · exact he
  · exact absurd hnone hne

theorem exec_of_cause_eq_none {i : Instr} {s : State} (hc : i.cause s = .none) :
    ∃ t, exec i s = .next t ∧ t.fault = s.fault := by
  rcases exec_raisesByTable i s with ⟨hne, -⟩ | ⟨-, h⟩
  · exact absurd hc hne
  · exact h

/-- Settles O45: by the case of the table each instruction falls under. -/
theorem instructionsRaiseExactlyByTheTable : Obligations.InstructionsRaiseExactlyByTheTable := fun _ _ =>
  ⟨exec_of_cause_eq_none, exec_of_cause_eq rfl⟩

/-! ## The fault a step ends with -/

/-- The fault a step of a machine that has not faulted has cause for: its fetch's, or its instruction's. -/
def State.stepCause (s : State) : Cause :=
  match s.fetch with
  | none => .fetchOutOfBounds
  | some iw => (decode iw).cause s

theorem State.stepCause_of_fetch_eq_none {s : State} (hnone : s.fetch = none) : s.stepCause = .fetchOutOfBounds := by
  simp [State.stepCause, hnone]

theorem State.stepCause_of_fetch {s : State} {iw : Word} (hiw : s.fetch = some iw) :
    s.stepCause = (decode iw).cause s := by
  simp [State.stepCause, hiw]

theorem State.stepCause_ne_none_iff {s : State} :
    s.stepCause ≠ .none ↔ s.fetch = none ∨ ∃ iw, s.fetch = some iw ∧ (decode iw).cause s ≠ .none := by
  unfold State.stepCause
  cases s.fetch <;> simp

/-- A step with cause for a fault ends with it and leaves all else; one without leaves `FAULT` clear. -/
theorem step_stepCause {s t : State} (hf : s.fault = .none) (h : step s = .next t) :
    t.fault = s.stepCause ∧ (s.stepCause ≠ .none → t = { s with fault := s.stepCause }) := by
  rcases step_cases h with ⟨hfault, -⟩ | ⟨-, hnone, rfl⟩ | ⟨iw, u, -, hiw, hu, rfl⟩
  · exact absurd hf hfault
  · rw [State.stepCause_of_fetch_eq_none hnone]
    exact ⟨rfl, fun _ => rfl⟩
  · rw [State.stepCause_of_fetch hiw, State.finish_fault]
    rcases exec_raisesByTable (decode iw) s with ⟨hne, he⟩ | ⟨hnone, u', he, hu'⟩ <;> cases he.symm.trans hu
    · exact ⟨rfl, fun _ => State.finish_eq_of_fault hne⟩
    · exact ⟨by rw [hu', hf, hnone], fun hne => absurd hnone hne⟩

theorem step_fault {s t : State} (hf : s.fault = .none) (h : step s = .next t) : t.fault = s.stepCause :=
  (step_stepCause hf h).1

/-- Settles O46: a step's fault is the one it has cause for. -/
theorem faultsArePrecise : Obligations.FaultsArePrecise := by
  intro s t hf h
  obtain ⟨hfault, hrest⟩ := step_stepCause hf h
  rw [hfault]
  exact ⟨State.stepCause_ne_none_iff, hrest⟩

theorem Cause.code_eq_zero {c : Cause} : c.code = 0 ↔ c = .none := by cases c <;> decide

/-- The code after a step is that of its fetched instruction's cause. -/
theorem faultOut_of_step {s t : State} {iw : Word} {i : Instr} {c : Cause} (hf : s.fault = .none) (h : step s = .next t)
    (hiw : s.fetch = some iw) (hi : decode iw = i) (hc : i.cause s = c) : t.faultOut = c.code := by
  rw [State.faultOut, step_fault hf h, State.stepCause_of_fetch hiw, hi, hc]

/-- Settles O60: the code of the cause, row by row of the table. -/
theorem faultLatchHoldsTheCodeOfTheCause : Obligations.FaultLatchHoldsTheCodeOfTheCause := by
  refine fun s t hf h => ⟨Cause.code_eq_zero, fun hpc => ?fetch, fun iw hiw =>
    ⟨fun x y n hi hn hout => ?drw, fun x hi hout => ?ldB, fun x hi hout => ?block, fun hi hsp => ?ret,
      fun nnn hi hsp => ?call, fun x hi hk => ?key, fun hc => ?none⟩⟩
  case fetch => rw [State.faultOut, step_fault hf h, State.stepCause_of_fetch_eq_none (s.fetch_eq_none.2 hpc)]; rfl
  case drw => exact faultOut_of_step hf h hiw hi (if_pos ⟨hn, hout⟩)
  case ldB => exact faultOut_of_step hf h hiw hi (if_pos hout)
  case block => rcases hi with hi | hi <;> exact faultOut_of_step hf h hiw hi (if_pos hout)
  case ret => exact faultOut_of_step hf h hiw hi (if_pos hsp)
  case call => exact faultOut_of_step hf h hiw hi (if_pos hsp)
  case key => rcases hi with hi | hi <;> exact faultOut_of_step hf h hiw hi (if_pos hk)
  case none => exact faultOut_of_step hf h hiw rfl hc

/-- Settles O10, by induction on the number of steps. -/
theorem faultedMachineIsStuck : Obligations.FaultedMachineIsStuck := by
  intro s k hf
  induction k with
  | zero => rfl
  | succ k ih => exact (run_succ k (step_eq_of_fault hf)).trans ih

/-- Settles O7: there is no word to fetch. -/
theorem fetchPastTheStoreRaises : Obligations.FetchPastTheStoreRaises := fun s hf hpc =>
  step_eq_of_fetch_eq_none hf (s.fetch_eq_none.2 hpc)

/-- Settles O8: the two bytes are the word fetched, and what follows the instruction is the decay, unless it raised. -/
theorem stepRunsTheDecodedInstruction : Obligations.StepRunsTheDecodedInstruction := by
  intro s i hf hpc _ hi t ht
  cases hi
  have hstep := step_eq_of_fetch hf (State.fetch_of_pc_le hpc) ht
  refine ⟨fun hnone => ⟨_, hstep, ?_, State.finish_dt_toNat hnone, State.finish_st_toNat hnone⟩, fun hfault => ?_⟩
  · exact (State.keepsExcept_finish (by decide) (by decide)).sameExcept (by decide)
  · rwa [State.finish_eq_of_fault hfault] at hstep

end Sys2Proof.Machine
end

section
/-! The frame of an instruction that does not raise: the parts, registers and bytes its rule writes (`00_scope.md` R11). -/

namespace Sys2Proof.Machine

section
variable {i : Instr} {s t : State}

theorem exec_fault_of_cause (hc : i.cause s = .none) (h : exec i s = .next t) : t.fault = s.fault := by
  obtain ⟨u, hu, hfault⟩ := exec_of_cause_eq_none hc
  cases hu.symm.trans h
  exact hfault

/-- Without a raise the frame holds for the fault latch too. -/
theorem exec_sameExcept (hc : i.cause s = .none) (h : exec i s = .next t) : s.sameExcept i.writes t := by
  have hkeep : s.keepsExcept i.writes t := by
    intro p hp
    by_cases hpf : p = .fault
    · subst hpf
      exact exec_fault_of_cause hc h
    · exact exec_keepsExcept h p (by simp [hpf, hp])
  exact hkeep.sameExcept (cfg_notMem_writes i)

/-- An instruction changes no register but its destinations, raise or not. -/
theorem exec_reg (h : exec i s = .next t) {y : Nibble} (hy : y ∉ i.destRegs) : t.reg y = s.reg y := by
  by_cases hw : .regs ∈ i.writes
  · cases i
    case ldImm | addImm | ldReg | or | and | xor | rnd | ldVxDt =>
      cases h
      exact State.reg_setReg_of_ne _ (by simpa [Instr.destRegs] using hy) _
    case addReg | sub | shr | subn | shl =>
      cases h
      obtain ⟨hx, hf⟩ : y ≠ _ ∧ y ≠ 0xF#4 := by simpa [Instr.destRegs] using hy
      exact State.setResultFlag_other _ hx hf _ _
    case drw x y' n =>
      rcases execDrw_cases s x y' n with ⟨-, he⟩ | ⟨-, -, he⟩ <;> cases he.symm.trans h
      · exact State.reg_setReg_of_ne _ (by simpa [Instr.destRegs] using hy) _
      · rfl
    case ldVxK x =>
      rcases execLdVxK_cases s x with ⟨-, he⟩ | ⟨k, -, he⟩ <;> cases he.symm.trans h
      · rfl
      · exact State.reg_setReg_of_ne _ (by simpa [Instr.destRegs] using hy) _
    case ldRegs x =>
      rcases execLdRegs_cases s x with ⟨-, he⟩ | ⟨-, he⟩ <;> cases he.symm.trans h
      · have hlen : (s.bytesAtI (x.toNat + 1)).length ≤ y.toNat := by
          rw [State.length_bytesAtI]
          by_contra hlt
          exact hy (List.mem_map.2 ⟨y.toNat, List.mem_range.2 (by omega), by simp⟩)
        rw [State.reg_setRegs, List.getD_eq_default _ _ hlen]
        rfl
      · rfl
    -- The other instructions do not write the registers.
    all_goals exact absurd hw (by simp [Instr.writes])
  · exact State.reg_congr (exec_keepsExcept h .regs (by simp [hw])) y

end

/-- Settles O47: the frame by parts, by registers and by bytes. -/
theorem frameOfEveryInstruction : Obligations.FrameOfEveryInstruction := fun _ _ _ hc h =>
  ⟨exec_sameExcept hc h, fun _ => exec_reg h, fun _ => exec_byte h⟩

end Sys2Proof.Machine
end

section
/-! The no-ops, the call and the return (`41_control_flow.md` R140, R142, R146). -/

namespace Sys2Proof.Machine

theorem State.sameExcept_advance (s : State) : s.sameExcept [.pc] s.advance :=
  (State.keepsExcept_advance (by decide)).sameExcept (by decide)

/-- Settles O13: the meaning of each is the fetch advance. -/
theorem noOpsOnlyAdvance : Obligations.NoOpsOnlyAdvance := fun s =>
  ⟨fun _ => ⟨_, rfl, rfl, s.sameExcept_advance⟩, fun _ _ _ => ⟨_, rfl, rfl, s.sameExcept_advance⟩,
    fun _ _ => ⟨_, rfl, rfl, s.sameExcept_advance⟩, fun _ _ => ⟨_, rfl, rfl, s.sameExcept_advance⟩⟩

/-- Settles O17: the push has room, or the stack is full. -/
theorem callPushesTheReturnAddress : Obligations.CallPushesTheReturnAddress := by
  intro nnn s
  refine ⟨fun hroom => ?_, fun hfull => execCall_of_full hfull nnn⟩
  have hexec : exec (.call nnn) s = _ := execCall_of_room hroom nnn
  have hc : (Instr.call nnn).cause s = .none := if_neg hroom
  exact ⟨_, hexec, rfl, absAddr_toNat nnn, exec_sameExcept hc hexec⟩

/-- Settles O18: there is an entry to pop, or the stack is empty. -/
theorem returnPopsIntoPc : Obligations.ReturnPopsIntoPc := by
  intro s
  refine ⟨fun older top hs => ?_, fun hsp => execRet_of_nil (List.length_eq_zero_iff.1 hsp)⟩
  have hexec : exec .ret s = _ := execRet_of_append hs
  have hc : Instr.ret.cause s = .none := if_neg (by simp [State.sp, hs])
  exact ⟨_, hexec, rfl, rfl, exec_sameExcept hc hexec⟩

/-- Settles O19: the return pops what the call pushed, and the two together are the fetch advance of the call. -/
theorem returnComesBackAfterCall : Obligations.ReturnComesBackAfterCall := fun nnn s hroom =>
  ⟨_, s.advance, execCall_of_room hroom nnn, execRet_of_append rfl, rfl, s.sameExcept_advance⟩

/-- Settles O21: each comparison of the two registers is one of their values. -/
theorem registerSkipsCompareTwoRegisters : Obligations.RegisterSkipsCompareTwoRegisters := fun x y n =>
  ⟨⟨decode_encode (i := .seReg x y n) rfl, skips_of_exec_eq_skipIf (fun _ => rfl) fun _ => by
      rw [beq_iff_eq, BitVec.toNat_inj]⟩,
    ⟨decode_encode (i := .sneReg x y n) rfl, skips_of_exec_eq_skipIf (fun _ => rfl) fun _ => by
      rw [bne_iff_ne, Ne, Ne, BitVec.toNat_inj]⟩⟩

/-- Settles O4: each word is the encoding of its instruction. -/
theorem wordsOfTheSpecDecode : Obligations.WordsOfTheSpecDecode :=
  ⟨decode_encode (i := .drw 0x1 0x2 0xA) rfl, decode_encode (i := .addReg 0xA 0xB) rfl, decode_encode (i := .ldRegs 0x1) rfl,
    decode_encode (i := .cls) rfl, decode_encode (i := .ret) rfl, decode_encode (i := .sys 0xE00) rfl,
    decode_encode (i := .skp 0x0) rfl, decode_encode (i := .nopE 0x0 0xA2) rfl, decode_encode (i := .nopF 0xF 0x75) rfl,
    decode_encode (i := .seReg 0xA 0xB 0x3) rfl, decode_encode (i := .jpV0 0x123) rfl⟩

end Sys2Proof.Machine
end

section
/-! The arithmetic and the shifts with a flag, and the random byte (`43_alu.md` R186 to R200). -/

namespace Sys2Proof.Machine

/-- What these instructions share: the result and the flag are both computed from the state before, and no other register is
written. -/
theorem writesRegAndFlag_of_exec_eq_setResultFlag {i : Instr} {x : Nibble} {value flag : State → Byte}
    {result flagged : State → Byte → Prop} (hexec : ∀ s, exec i s = .next (s.advance.setResultFlag x (value s) (flag s)))
    (hvalue : ∀ s, result s (value s)) (hflag : ∀ s, flagged s (flag s)) : WritesRegAndFlag i x result flagged := by
  intro s
  have hkeep : s.keepsExcept [.pc, .regs] (s.advance.setResultFlag x (value s) (flag s)) :=
    (State.keepsExcept_advance (by decide)).trans (State.keepsExcept_setResultFlag _ _ _ (by decide))
  refine ⟨_, hexec s, fun hx => ?_, ?_, fun y hx hf => State.setResultFlag_other _ hx hf _ _, rfl,
    hkeep.sameExcept (by decide)⟩
  · rw [State.setResultFlag_result _ hx]
    exact hvalue s
  · rw [State.setResultFlag_flag]
    exact hflag s

/-! ## The values and flags as numbers -/

theorem flagByte_decide_toNat (p : Prop) [Decidable p] : (flagByte (decide p)).toNat = if p then 1 else 0 := by
  by_cases h : p <;> simp [flagByte, h]

/-- The difference of two bytes is that of their values modulo 256. -/
theorem byte_sub_toNat (a b : Byte) : ((a - b).toNat : Int) = ((a.toNat : Int) - b.toNat) % 256 := by
  have := b.isLt
  rw [BitVec.toNat_sub]
  omega

theorem byte_getLsbD (v : Byte) (k : Nat) : v.getLsbD k = decide (v.toNat / 2 ^ k % 2 = 1) :=
  Nat.testBit_eq_decide_div_mod_eq

/-- The highest bit of a byte says whether it is 128 or more. -/
theorem byte_getLsbD_seven (v : Byte) : v.getLsbD 7 = decide (128 ≤ v.toNat) :=
  BitVec.msb_eq_decide v

theorem State.shiftSource_toNat (s : State) (x y : Nibble) :
    (s.shiftSource x y).toNat = if s.cfg.legacyShiftSource = true then (s.reg y).toNat else (s.reg x).toNat :=
  apply_ite BitVec.toNat _ _ _

theorem byte_shiftRight_one_toNat (v : Byte) : (v >>> 1).toNat = v.toNat / 2 := by
  rw [BitVec.toNat_ushiftRight, Nat.shiftRight_one]

theorem byte_shiftLeft_one_toNat (v : Byte) : (v <<< 1).toNat = v.toNat * 2 % 256 := by
  rw [BitVec.toNat_shiftLeft, Nat.shiftLeft_eq]

theorem shrFlag_toNat (v : Byte) : (shrFlag v).toNat = v.toNat % 2 := by
  rw [shrFlag, byte_getLsbD, flagByte_decide_toNat, pow_zero, Nat.div_one]
  split <;> omega

/-- The three flags of 8XYE (`43_alu.md` R197). -/
theorem shlFlagOf_toNat (m : ShlFlag) (v : Byte) :
    (m = .high8 → (shlFlagOf m v).toNat = if v.toNat ≥ 128 then 8 else 0) ∧
    (m = .bit3 → (shlFlagOf m v).toNat = if v.toNat / 8 % 2 = 1 then 8 else 0) ∧
    (m = .conv → (shlFlagOf m v).toNat = v.toNat / 128) := by
  refine ⟨?high8, ?bit3, ?conv⟩ <;> rintro rfl
  case high8 =>
    rw [shlFlagOf, byte_getLsbD_seven, apply_ite BitVec.toNat]
    simp
  case bit3 =>
    have hand : v &&& 0x08 = if v.getLsbD 3 then 0x08 else 0 := BitVec.and_twoPow v 3
    rw [shlFlagOf, hand, byte_getLsbD, apply_ite BitVec.toNat]
    simp
  case conv =>
    have := v.isLt
    rw [shlFlagOf, byte_getLsbD_seven, flagByte_decide_toNat]
    split <;> omega

/-! ## The instructions -/

/-- Settles O25: the carry is read from the sum before it wraps. -/
theorem addRegistersSetsCarry : Obligations.AddRegistersSetsCarry := fun _ _ =>
  writesRegAndFlag_of_exec_eq_setResultFlag (fun _ => rfl) (fun _ => BitVec.toNat_add ..) fun _ => flagByte_decide_toNat _

/-- Settles O26: each flag compares the two operands. -/
theorem subtractionsSetStrictNotBorrow : Obligations.SubtractionsSetStrictNotBorrow := fun _ _ =>
  ⟨writesRegAndFlag_of_exec_eq_setResultFlag (fun _ => rfl) (fun _ => byte_sub_toNat ..) fun _ => flagByte_decide_toNat _,
    writesRegAndFlag_of_exec_eq_setResultFlag (fun _ => rfl) (fun _ => byte_sub_toNat ..) fun _ => flagByte_decide_toNat _⟩

/-- Settles O27: the result and the flag are half and parity of the strap's source. -/
theorem shiftRightHalvesItsSource : Obligations.ShiftRightHalvesItsSource := by
  refine fun x y => writesRegAndFlag_of_exec_eq_setResultFlag (fun _ => rfl) (fun s => ?_) fun s => ?_
  · rw [byte_shiftRight_one_toNat, State.shiftSource_toNat]
  · rw [shrFlag_toNat, State.shiftSource_toNat]

/-- Settles O28: the result is twice the strap's source, the flag that of the mode. -/
theorem shiftLeftDoublesItsSource : Obligations.ShiftLeftDoublesItsSource := by
  refine fun x y => writesRegAndFlag_of_exec_eq_setResultFlag (fun _ => rfl) (fun s => ?_) fun s v hv => ?_
  · rw [byte_shiftLeft_one_toNat, State.shiftSource_toNat]
  · rw [hv, ← State.shiftSource_toNat]
    exact shlFlagOf_toNat ..

/-- Settles O29: the register is the byte drawn, masked bit by bit, and the frame is that of every instruction. -/
theorem randomByteIsMasked : Obligations.RandomByteIsMasked := by
  intro x nn s
  refine ⟨s.advance.drawn.setReg x (s.rand8 &&& nn), rfl, fun k => ?_, fun y hy => State.reg_setReg_of_ne _ hy _, rfl, rfl,
    exec_sameExcept (i := .rnd x nn) rfl rfl⟩
  rw [State.reg_setReg_self]
  exact BitVec.getLsbD_and

end Sys2Proof.Machine
end

section
/-! FX1E and FX29, and the loads and stores at `I` (`44_index_memory.md` R212 to R224). -/

namespace Sys2Proof.Machine

theorem glyphAddr_toNat (v : Byte) : (glyphAddr v).toNat = v.toNat * 5 + 0x50 := by
  have := v.isLt
  rw [glyphAddr, BitVec.toNat_ofNat, glyphBase]
  omega

theorem State.indexPlus_toNat (s : State) (x : Nibble) :
    (s.indexPlus x).toNat = (s.i.toNat + (s.reg x).toNat) % 65536 := by
  have := (s.reg x).isLt
  rw [State.indexPlus, BitVec.toNat_add, BitVec.toNat_setWidth]
  omega

/-- Settles O31: the value in `I` is that of the sum, which only FX1E wraps. -/
theorem indexArithmetic : Obligations.IndexArithmetic := fun x s =>
  ⟨⟨s.advance.setI (s.indexPlus x), rfl, s.indexPlus_toNat x, rfl, exec_sameExcept (i := .addI x) rfl rfl⟩,
    ⟨s.advance.setI (glyphAddr (s.reg x)), rfl, glyphAddr_toNat _, rfl, exec_sameExcept (i := .ldF x) rfl rfl⟩⟩

/-- A store that fits moves `PC` past its instruction. -/
theorem storeAtI_of_fits {s : State} {bs : List Byte} (hfit : s.i.toNat + bs.length ≤ memSize) :
    s.storeAtI bs = .next (s.writeBytes s.i.toNat bs).advance := by
  rcases s.storeAtI_cases bs with ⟨-, he⟩ | ⟨-, hout, -⟩
  · exact he
  · exact absurd hfit hout.not_ge

/-- Settles O32: by what every byte is after an FX33 that fits. -/
theorem bcdStoresThreeDigits : Obligations.BcdStoresThreeDigits := by
  intro x s
  refine ⟨fun hfit => ?_, fun hout => exec_of_cause_eq (if_pos hout) (by decide)⟩
  have hexec : exec (.ldB x) s = _ := storeAtI_of_fits (bs := bcdDigits (s.reg x)) (Nat.succ_le_succ hfit)
  have hc : (Instr.ldB x).cause s = .none := if_neg hfit.not_gt
  obtain ⟨h100, -, -, -⟩ := byte_of_execLdB hfit hexec s.i.toNat
  obtain ⟨-, h10, -, -⟩ := byte_of_execLdB hfit hexec (s.i.toNat + 1)
  obtain ⟨-, -, h1, -⟩ := byte_of_execLdB hfit hexec (s.i.toNat + 2)
  refine ⟨_, hexec, h100 rfl, h10 rfl, h1 rfl, ?_, fun _ => exec_byte hexec, rfl, exec_sameExcept hc hexec⟩
  rw [h100 rfl, h10 rfl, h1 rfl]
  omega

/-- Settles O33: by what every byte is after an FX55 that fits. -/
theorem storeRegistersWritesTheBlock : Obligations.StoreRegistersWritesTheBlock := by
  intro x s
  refine ⟨fun hfit => ?_, fun hout => exec_of_cause_eq (if_pos hout) (by decide)⟩
  have hlen : s.i.toNat + (s.regsThrough x).length ≤ memSize := by
    rw [State.length_regsThrough]
    exact Nat.succ_le_succ hfit
  have hexec : exec (.stRegs x) s = _ := storeAtI_of_fits hlen
  have hc : (Instr.stRegs x).cause s = .none := if_neg hfit.not_gt
  exact ⟨_, hexec, fun k hk => (byte_of_execStRegs hfit hexec _).1 k hk rfl,
    fun _ => exec_byte hexec, rfl, exec_sameExcept hc hexec⟩

theorem execLdRegs_of_fits {x : Nibble} {s : State} (hfit : s.i.toNat + x.toNat ≤ 4095) :
    exec (.ldRegs x) s = .next (s.advance.setRegs (s.bytesAtI (x.toNat + 1))) := by
  rcases execLdRegs_cases s x with ⟨-, he⟩ | ⟨hout, -⟩
  · exact he
  · exact absurd (Nat.succ_le_succ hfit) hout.not_ge

/-- A register up to X after an FX65 that fits. -/
theorem reg_setRegs_bytesAtI {x k : Nibble} (s : State) (hk : k.toNat ≤ x.toNat) :
    (s.advance.setRegs (s.bytesAtI (x.toNat + 1))).reg k = s.byte (s.i.toNat + k.toNat) := by
  have hlen : k.toNat < (s.bytesAtI (x.toNat + 1)).length := by
    rw [State.length_bytesAtI]
    exact Nat.lt_succ_of_le hk
  rw [State.reg_setRegs, List.getD_eq_getElem _ _ hlen]
  simp [State.bytesAtI]

/-- A register above X is no destination of FX65. -/
theorem notMem_destRegs_ldRegs {x k : Nibble} (hk : x.toNat < k.toNat) : k ∉ (Instr.ldRegs x).destRegs := by
  intro hmem
  obtain ⟨j, hj, rfl⟩ := List.mem_map.1 hmem
  have hle : (BitVec.ofNat 4 j).toNat ≤ j := Nat.mod_le ..
  have := List.mem_range.1 hj
  omega

/-- Settles O34: the bytes read become the registers up to X, and the frame gives the others. -/
theorem loadRegistersReadsTheBlock : Obligations.LoadRegistersReadsTheBlock := by
  intro x s
  refine ⟨fun hfit => ?_, fun hout => exec_of_cause_eq (if_pos hout) (by decide)⟩
  have hexec := execLdRegs_of_fits hfit
  have hc : (Instr.ldRegs x).cause s = .none := if_neg hfit.not_gt
  exact ⟨_, hexec, fun k => reg_setRegs_bytesAtI s, fun k hk => exec_reg hexec (notMem_destRegs_ldRegs hk), rfl,
    exec_sameExcept hc hexec⟩

/-- Settles O35: the load reads each byte where the store left it. -/
theorem loadAfterStoreGivesTheRegistersBack : Obligations.LoadAfterStoreGivesTheRegistersBack := by
  intro x s t u hfit hst hbytes hi
  have hi : u.i = s.i := hi.trans (exec_keepsExcept hst .i (by simp [Instr.writes]))
  refine ⟨_, execLdRegs_of_fits (by rwa [hi]), fun k hk => ?_⟩
  rw [reg_setRegs_bytesAtI u hk, hi, hbytes]
  exact (byte_of_execStRegs hfit hst _).1 k hk rfl

end Sys2Proof.Machine
end

section
/-! A memory in canonical form is determined by the bytes it reads as (`10_state.md` R38; log 4). -/

namespace Sys2Proof.Machine

/-- Where addresses rise strictly, the cell found for an address is the one listed. -/
theorem findCell_eq_some {cs : List Host.Cell} (hs : cs.Pairwise fun c d => c.1 < d.1) {a : Nat} {b : Byte} :
    findCell a cs = some b ↔ (a, b) ∈ cs := by
  induction cs with
  | nil => simp [findCell]
  | cons c cs ih =>
    obtain ⟨hc, hcs⟩ := List.pairwise_cons.1 hs
    rw [findCell, List.mem_cons]
    split
    · rename_i hca
      have hnot : (a, b) ∉ cs := fun hmem => (hc _ hmem).ne hca
      simp [Prod.ext_iff, hca, hnot, eq_comm]
    · rename_i hca
      have hne : (a, b) ≠ c := fun he => hca (he ▸ rfl)
      simp [hne, ih hcs]

/-- A canonical memory lists the addresses that do not read as at reset, each with the byte it reads as. -/
theorem Memory.mem_cells {g : GlyphTable} {m : Memory} (h : m.wf g) {c : Host.Cell} :
    c ∈ m.cells ↔ m.byte g c.1 = c.2 ∧ c.2 ≠ resetByte g c.1 := by
  obtain ⟨hsorted, hreset⟩ := h
  have hfind : findCell c.1 m.cells = some c.2 ↔ c ∈ m.cells := findCell_eq_some hsorted
  constructor
  · intro hc
    exact ⟨by rw [Memory.byte, hfind.2 hc]; rfl, (hreset c hc).2⟩
  · rintro ⟨hbyte, hne⟩
    unfold Memory.byte at hbyte
    cases hcell : findCell c.1 m.cells with
    | none => rw [hcell] at hbyte; exact absurd hbyte.symm hne
    | some b => rw [hcell] at hbyte; exact hfind.1 (hcell.trans (congrArg some hbyte))

/-- Settles O37: two lists of rising addresses with the same cells are equal. -/
theorem equalBytesMeanEqualMemory : Obligations.EqualBytesMeanEqualMemory := by
  intro g m m' hm hm' hbytes
  have : Std.Asymm fun c d : Host.Cell => c.1 < d.1 := ⟨fun _ _ => lt_asymm⟩
  have hcells : m.cells = m'.cells := hm.1.eq_of_mem_iff hm'.1 fun c => by
    rw [Memory.mem_cells hm, Memory.mem_cells hm', hbytes]
  cases m
  cases m'
  exact congrArg Memory.mk hcells

end Sys2Proof.Machine
end

section
/-! What DXYN leaves (`45_display.md` R232, R233, R236, R237). -/

namespace Sys2Proof.Machine

theorem flagByte_eq_zero {b : Bool} : flagByte b = 0 ↔ b = false := by cases b <;> decide

section
variable {s : State} {x y n : Nibble}

theorem execDrw_of_fits (hfit : s.spriteFits n) : exec (.drw x y n) s =
    .next ((s.advance.setFb (s.drawResult x y n).1).setReg 0xF#4 (flagByte (s.drawResult x y n).2)) := by
  rcases execDrw_cases s x y n with ⟨-, he⟩ | ⟨hne, hout, -⟩
  · exact he
  · exact absurd hfit (not_or.2 ⟨hne, hout.not_ge⟩)

/-- A pixel on the screen after DXYN is inverted where the sprite covers it, else kept. -/
theorem fbPixel_drawResult_covers {px py : Nat} (hx : px < 64) (hy : py < 32) :
    (s.spriteCovers x y n px py → fbPixel (s.drawResult x y n).1 px py = !fbPixel s.fb px py) ∧
    (¬s.spriteCovers x y n px py → fbPixel (s.drawResult x y n).1 px py = fbPixel s.fb px py) := by
  rw [State.fbPixel_drawResult, Nat.mod_eq_of_lt hx, Nat.mod_eq_of_lt hy, State.spriteCovers_iff_mem]
  constructor
  · intro hcov
    rw [decide_eq_true hcov, Bool.xor_true]
  · intro hcov
    rw [decide_eq_false hcov, Bool.xor_false]

theorem drawResult_collision_iff : (s.drawResult x y n).2 = true ↔
    ∃ px py, px < 64 ∧ py < 32 ∧ s.spriteCovers x y n px py ∧ fbPixel s.fb px py = true := by
  rw [State.drawResult_collision, State.exists_covered_lit_iff]

end

/-- Settles O39: the draw toggles each covered pixel once, and its collision is a covered pixel that was lit. -/
theorem drawInvertsTheSpritesPixels : Obligations.DrawInvertsTheSpritesPixels := by
  intro x y n s
  refine ⟨fun hrows => ?_, fun ⟨hne, hout⟩ => ?_⟩
  · have hfit : s.spriteFits n := by unfold State.spriteFits memSize; omega
    have hexec := execDrw_of_fits (x := x) (y := y) hfit
    have hc : (Instr.drw x y n).cause s = .none := if_neg (by omega)
    refine ⟨_, hexec, fun px py => fbPixel_drawResult_covers, ?one, ?zero,
      fun z hz => exec_reg hexec (by simpa [Instr.destRegs] using hz), rfl, exec_sameExcept hc hexec⟩
      <;> rw [State.reg_setReg_self, ← drawResult_collision_iff]
    case one => exact flagByte_eq_one.2
    case zero => exact fun h => flagByte_eq_zero.2 (Bool.eq_false_of_not_eq_true h)
  · exact exec_of_cause_eq (if_pos ⟨Nat.one_le_iff_ne_zero.2 hne, hout⟩) (by decide)

end Sys2Proof.Machine
end

section
/-! The instructions that read the keypad (`46_keypad_timers.md` R250, R252, R256). -/

namespace Sys2Proof.Machine

section
variable {s : State} {x : Nibble}

theorem execSkp_of_lt (h : (s.reg x).toNat < 16) :
    exec (.skp x) s = .next (s.advance.skipIf s.keys[(s.reg x).toNat]) := by
  have hdown := s.keyDown?_of_le (Nat.le_of_lt_succ h)
  simp only [exec, execSkp, hdown]

theorem execSknp_of_lt (h : (s.reg x).toNat < 16) :
    exec (.sknp x) s = .next (s.advance.skipIf !s.keys[(s.reg x).toNat]) := by
  have hdown := s.keyDown?_of_le (Nat.le_of_lt_succ h)
  simp only [exec, execSknp, hdown]

theorem execLdVxK_of_noKey (h : s.anyKey = none) : exec (.ldVxK x) s = .next { s with paused := true } := by
  simp only [exec, execLdVxK, h]

theorem execLdVxK_of_key {k : Nat} (h : s.anyKey = some k) :
    exec (.ldVxK x) s = .next ({ s with paused := false, pc := s.pc + 2 }.setReg x (BitVec.ofNat 8 k)) := by
  simp only [exec, execLdVxK, h]

end

/-- A skip from the advanced `PC`, taken or not. -/
theorem State.advance_skipIf_pc (s : State) (c : Bool) :
    (c = true → (s.advance.skipIf c).pc = s.nextPc + 2) ∧ (c = false → (s.advance.skipIf c).pc = s.nextPc) := by
  cases c <;> simp

/-- Settles O41: the key number is in range, or the table of causes gives the raise. -/
theorem keySkipsReadOneKey : Obligations.KeySkipsReadOneKey := by
  refine fun x s => ⟨fun h => ⟨?skp, ?sknp⟩, fun h => ⟨?_, ?_⟩⟩
  case skp =>
    have hc : (Instr.skp x).cause s = .none := if_neg (Nat.le_of_lt_succ h).not_gt
    obtain ⟨hdown, hup⟩ := s.advance_skipIf_pc s.keys[(s.reg x).toNat]
    exact ⟨_, execSkp_of_lt h, hdown, hup, exec_sameExcept hc (execSkp_of_lt h)⟩
  case sknp =>
    have hc : (Instr.sknp x).cause s = .none := if_neg (Nat.le_of_lt_succ h).not_gt
    obtain ⟨hup, hdown⟩ := s.advance_skipIf_pc !s.keys[(s.reg x).toNat]
    rw [Bool.not_eq_true'] at hup
    rw [Bool.not_eq_false'] at hdown
    exact ⟨_, execSknp_of_lt h, hup, hdown, exec_sameExcept hc (execSknp_of_lt h)⟩
  · exact exec_of_cause_eq (if_pos h) (by decide)
  · exact exec_of_cause_eq (if_pos h) (by decide)

/-- Settles O42: the least key that is down is the one `AnyKey()` gives, and with none down there is nothing but the pause. -/
theorem keyWaitTakesTheLeastKey : Obligations.KeyWaitTakesTheLeastKey := by
  refine fun x s => ⟨fun k hk hdown hleast => ?_, fun hup => ?_⟩
  · have hexec := execLdVxK_of_key (x := x) (s.anyKey_eq_some.2 ⟨hk, hdown, hleast⟩)
    refine ⟨_, hexec, ?_, fun y hy => State.reg_setReg_of_ne _ hy _, rfl, rfl, exec_sameExcept rfl hexec⟩
    rw [State.reg_setReg_self, BitVec.toNat_ofNat]
    omega
  · have hsame : s.sameExcept [.paused] { s with paused := true } := by
      intro p hp
      cases p
      case paused => exact absurd (by decide) hp
      all_goals simp [State.agrees, State.reg, State.byte]
    exact ⟨_, execLdVxK_of_noKey (s.anyKey_eq_none.2 hup), rfl, rfl, hsame⟩

end Sys2Proof.Machine
end

section
/-! Reset, program load and key write (`10_state.md` R45, R46; `60_exceptions.md` R295; `70_reset_and_hazards.md` R310, R316,
R317). -/

namespace Sys2Proof.Machine

theorem reg_hostReset (s : State) (x : Nibble) : s.hostReset.reg x = 0 := by simp [State.reg]

theorem fbPixel_hostReset (s : State) (px py : Nat) : fbPixel s.hostReset.fb px py = false :=
  fbPixel_fbClear px py

theorem keys_hostReset (s : State) {k : Nat} (hk : k < 16) : s.hostReset.keys[k] = false := by simp

theorem byte_hostReset_glyph (s : State) {k : Nat} (hk : k < 80) : s.hostReset.byte (0x50 + k) = s.cfg.glyphTable[k] :=
  resetByte_glyph _ hk

theorem byte_hostReset_other (s : State) {a : Nat} (ha : a < 0x50 ∨ 0xA0 ≤ a) : s.hostReset.byte a = 0 :=
  resetByte_other _ ha

/-- Settles O59: field by field. -/
theorem hostResetRestoresTheResetState : Obligations.HostResetRestoresTheResetState := fun s =>
  ⟨reg_hostReset s, rfl, rfl, rfl, rfl, rfl, rfl, fbPixel_hostReset s, fun _ => keys_hostReset s, rfl, rfl,
    fun _ => byte_hostReset_glyph s, fun _ => byte_hostReset_other s, rfl, rfl⟩

/-- Settles O53: `State.reset` is its own host reset, with the default parameters. -/
theorem resetLeavesTheStatedValues : Obligations.ResetLeavesTheStatedValues := by
  refine ⟨reg_hostReset .reset, rfl, rfl, rfl, rfl, rfl, rfl, fbPixel_hostReset .reset, fun _ => keys_hostReset .reset, rfl,
    fun k hk => ?glyph, fun _ => byte_hostReset_other .reset, rfl, rfl, rfl⟩
  case glyph =>
    have hlen : k < defaultGlyphBytes.length := hk
    rw [List.getD_eq_getElem _ _ hlen]
    exact byte_hostReset_glyph .reset hk

/-- Settles O56: the invariant holds after a reset with any parameters. -/
theorem resetSatisfiesTheInvariant : Obligations.ResetSatisfiesTheInvariant := resetWith_inv builtConfig

/-- Settles O54: a load that is not refused is a write from 0x200 that ends in the store. -/
theorem programLoadCopiesTheImage : Obligations.ProgramLoadCopiesTheImage := by
  intro s image
  refine ⟨fun hlen => ?_, fun hlen => if_neg hlen.not_ge⟩
  have hload : s.load image = s.writeBytes 0x200 image := if_pos hlen
  rw [hload]
  refine ⟨fun k hk => ?_, fun a ha => ?_, (State.keepsExcept_writeBytes _ _ (by decide)).sameExcept (by decide)⟩
  · have hin : 0x200 ≤ 0x200 + k ∧ 0x200 + k < 0x200 + image.length ∧ 0x200 + k < memSize := by unfold memSize; omega
    rw [State.byte_writeBytes, if_pos hin, Nat.add_sub_cancel_left, List.getD_eq_getElem _ _ hk]
  · rw [State.byte_writeBytes, if_neg (by omega)]

/-- Settles O55: the key number, widened to a byte, is the index written. -/
theorem keyWriteChangesOneKey : Obligations.KeyWriteChangesOneKey := by
  intro s k down
  have hk : (k.setWidth 8).toNat = k.toNat := BitVec.toNat_setWidth_of_le (by decide)
  refine ⟨?_, fun j hj => ?_, (State.keepsExcept_keyWrite k down (by decide)).sameExcept (by decide)⟩
  · simp [State.keyDown?, hk]
  · have hne : k.toNat ≠ j.toNat := fun he => hj (BitVec.eq_of_toNat_eq (he.symm.trans hk.symm))
    simp [State.keyDown?, Vector.getElem?_set_ne, hne]

end Sys2Proof.Machine
end
